-- ==== Sys2Proof/Config.lean ====
section
/-!
DEFINITION. What is fixed for the machine: the parameters of spec/00_scope.md R6, and the free values, which are
opaque constants with no body. The widths of R6 (`W_IN` 8, `E_BITS` 4, `M_BITS` 3, `W_OUT` 32) are the widths of the
types in Word.lean.
-/

namespace Sys2Proof.Config

/-- `BIAS_IN` (R6): the E4M3 exponent bias. -/
abbrev biasIn : Nat := 7

/-- `BIAS_OUT` (R6): the float32 exponent bias. -/
abbrev biasOut : Nat := 127

/-- `EXP_SHIFT` (R6): the place of the float32 exponent field. -/
abbrev expShift : Nat := 23

/-- `MANT_SHIFT` (R6): the left shift of the mantissa, `23 - 3`. -/
abbrev mantShift : Nat := 20

/-- `SIGN_POS` (R6): the place of the float32 sign bit. -/
abbrev signPos : Nat := 31

/-- `N_TABLE` (R6): the number of entries of the rebias table. -/
abbrev nTable : Nat := 16

/-- `NAN_IN_EXP` (R6): the exponent field of the NaN encoding. -/
abbrev nanInExp : BitVec 4 := 0xF#4

/-- `NAN_IN_MANT` (R6): the mantissa field of the NaN encoding. -/
abbrev nanInMant : BitVec 3 := 0x7#3

/-- Free value: the sign bit of `NAN_BITS`, which the spec leaves OPEN (43_compose_mux.md R73, 92_eei_decisions.md D4).
DESIGN CHOICE, log 4: safe. -/
opaque nanSign : BitVec 1

/-- Free value: which of the `2^23 - 1` non-zero fractions `NAN_BITS` has, counted from 0 (R73: `NAN_BITS[22:0] != 0`).
DESIGN CHOICE, log 4: safe. -/
opaque nanFraction : Fin 8388607

/-- Free value: `T_PD`, the propagation delay (R6, 92_eei_decisions.md D10), in an unnamed unit of time.
DESIGN CHOICE, log 5: safe. -/
opaque tPd : Nat

end Sys2Proof.Config
end

