-- ==== Sys2Proof/Word.lean ====
section
/-!
DEFINITION. The block's words: its 8-bit input, its 32-bit output and the three fields of the input
(spec/00_scope.md R6, R8; 10_state.md R23).
-/

namespace Sys2Proof

/-- An input byte, `W_IN` = 8 bits (R6, R21). -/
abbrev Byte := BitVec 8

/-- An output word or a rebias-table entry, `W_OUT` = 32 bits (R6, R22, R60). -/
abbrev Word := BitVec 32

/-- The net `sign` (R23). -/
abbrev Sign := BitVec 1

/-- The net `exp_idx`, `E_BITS` = 4 bits (R6, R23). -/
abbrev ExpIdx := BitVec 4

/-- The net `mant`, `M_BITS` = 3 bits (R6, R23). -/
abbrev Mant := BitVec 3

/-- The rebias table: `N_TABLE` = 16 words (R24, R60). -/
abbrev Rom := Vector Word 16

end Sys2Proof
end

