-- ==== Sys2Proof/Syntax.lean ====
section
/-!
DEFINITION. The instructions: one constructor per row of spec/opcode_table.json (30_encoding.md R47). An instruction is
the application of one input byte to the block (00_scope.md R2), with the byte's fields (R40) as operands where the row
leaves them free.
-/

namespace Sys2Proof

/-- The eight rows of the decode map (R47). Where a row fixes a field to one value, the field is no operand; where it
bounds a field, WellFormed.lean checks the bound (DESIGN CHOICE, log 8: safe). -/
inductive Instr where
  /-- `DECODE.FIN.E0_7`, pattern `s0eeemmm`: exponent field 0 to 7. -/
  | decodeFinE0_7 (sign : Sign) (exp : ExpIdx) (mant : Mant)
  /-- `DECODE.FIN.E8_11`, pattern `s10eemmm`: exponent field 8 to 11. -/
  | decodeFinE8_11 (sign : Sign) (exp : ExpIdx) (mant : Mant)
  /-- `DECODE.FIN.E12_13`, pattern `s110emmm`: exponent field 12 or 13. -/
  | decodeFinE12_13 (sign : Sign) (exp : ExpIdx) (mant : Mant)
  /-- `DECODE.FIN.E14`, pattern `s1110mmm`: exponent field 14. -/
  | decodeFinE14 (sign : Sign) (mant : Mant)
  /-- `DECODE.FIN.E15_M0_3`, pattern `s11110mm`: exponent field 15, mantissa 0 to 3. -/
  | decodeFinE15_M0_3 (sign : Sign) (mant : Mant)
  /-- `DECODE.FIN.E15_M4_5`, pattern `s111110m`: exponent field 15, mantissa 4 or 5. -/
  | decodeFinE15_M4_5 (sign : Sign) (mant : Mant)
  /-- `DECODE.FIN.E15_M6`, pattern `s1111110`: exponent field 15, mantissa 6. -/
  | decodeFinE15_M6 (sign : Sign)
  /-- `DECODE.NAN`, pattern `s1111111`: exponent field 15, mantissa 7. -/
  | decodeNan (sign : Sign)
deriving DecidableEq, Repr

end Sys2Proof
end

