-- ==== Sys2Proof/WellFormed.lean ====
section
/-!
DEFINITION. Which instructions are well formed: the field ranges of the rows of spec/30_encoding.md R47.
-/

namespace Sys2Proof

/-- The operands lie in the row's ranges (R47, columns `exp_idx` and `mant`). -/
def Instr.wf : Instr → Bool
  | .decodeFinE0_7 _ exp _ => exp.toNat ≤ 7
  | .decodeFinE8_11 _ exp _ => 8 ≤ exp.toNat && exp.toNat ≤ 11
  | .decodeFinE12_13 _ exp _ => 12 ≤ exp.toNat && exp.toNat ≤ 13
  | .decodeFinE14 _ _ => true
  | .decodeFinE15_M0_3 _ mant => mant.toNat ≤ 3
  | .decodeFinE15_M4_5 _ mant => 4 ≤ mant.toNat && mant.toNat ≤ 5
  | .decodeFinE15_M6 _ => true
  | .decodeNan _ => true

end Sys2Proof
end

