-- ==== Sys2Proof/Decode.lean ====
section
/-!
DEFINITION. The bit-field extractor (spec/41_extractor.md), the decode map (30_encoding.md R47) and the encoder (R40).
Every byte decodes (R45); what is not one byte of 8 defined bits is refused by name (93_implementation_defined.md U4).
-/

namespace Sys2Proof

/-! ## The extractor -/

/-- R51: `sign <- (raw_i >> 7) & 0x1`. -/
def extractSign (raw : Byte) : Sign := ((raw >>> 7) &&& 0x1#8).setWidth 1

/-- R52: `exp_idx <- (raw_i >> 3) & 0xF`. -/
def extractExp (raw : Byte) : ExpIdx := ((raw >>> 3) &&& 0xF#8).setWidth 4

/-- R53: `mant <- raw_i & 0x7`. -/
def extractMant (raw : Byte) : Mant := (raw &&& 0x7#8).setWidth 3

/-! ## The decode map -/

/-- One row of the decode map: the byte's bits under `mask` must equal `pattern` (R47). -/
structure DecodeRow where
  mask : Byte
  pattern : Byte
deriving DecidableEq, Repr

/-- The row selects the byte. -/
def DecodeRow.hits (r : DecodeRow) (raw : Byte) : Bool := (raw &&& r.mask) == r.pattern

/-- R47, row `DECODE.FIN.E0_7`. -/
def rowFinE0_7 : DecodeRow := ⟨0x40#8, 0x00#8⟩
/-- R47, row `DECODE.FIN.E8_11`. -/
def rowFinE8_11 : DecodeRow := ⟨0x60#8, 0x40#8⟩
/-- R47, row `DECODE.FIN.E12_13`. -/
def rowFinE12_13 : DecodeRow := ⟨0x70#8, 0x60#8⟩
/-- R47, row `DECODE.FIN.E14`. -/
def rowFinE14 : DecodeRow := ⟨0x78#8, 0x70#8⟩
/-- R47, row `DECODE.FIN.E15_M0_3`. -/
def rowFinE15_M0_3 : DecodeRow := ⟨0x7C#8, 0x78#8⟩
/-- R47, row `DECODE.FIN.E15_M4_5`. -/
def rowFinE15_M4_5 : DecodeRow := ⟨0x7E#8, 0x7C#8⟩
/-- R47, row `DECODE.FIN.E15_M6`. -/
def rowFinE15_M6 : DecodeRow := ⟨0x7F#8, 0x7E#8⟩
/-- R47, row `DECODE.NAN`. -/
def rowNan : DecodeRow := ⟨0x7F#8, 0x7F#8⟩

/-- The decode map in the table's order (R47). -/
def decodeRows : List DecodeRow :=
  [rowFinE0_7, rowFinE8_11, rowFinE12_13, rowFinE14, rowFinE15_M0_3, rowFinE15_M4_5, rowFinE15_M6, rowNan]

/-- The row of the decode map an instruction stands for. -/
def Instr.row : Instr → DecodeRow
  | .decodeFinE0_7 _ _ _ => rowFinE0_7
  | .decodeFinE8_11 _ _ _ => rowFinE8_11
  | .decodeFinE12_13 _ _ _ => rowFinE12_13
  | .decodeFinE14 _ _ => rowFinE14
  | .decodeFinE15_M0_3 _ _ => rowFinE15_M0_3
  | .decodeFinE15_M4_5 _ _ => rowFinE15_M4_5
  | .decodeFinE15_M6 _ => rowFinE15_M6
  | .decodeNan _ => rowNan

/-- The instruction a byte stands for. The rows cover the 256 bytes exactly once (R47), so the last row needs no test of
its own: a byte that none of the first seven hits is one `rowNan` hits (`decode_nan_hit` in Laws/Decode.lean). -/
def decodeByte (raw : Byte) : Instr :=
  if rowFinE0_7.hits raw then .decodeFinE0_7 (extractSign raw) (extractExp raw) (extractMant raw)
  else if rowFinE8_11.hits raw then .decodeFinE8_11 (extractSign raw) (extractExp raw) (extractMant raw)
  else if rowFinE12_13.hits raw then .decodeFinE12_13 (extractSign raw) (extractExp raw) (extractMant raw)
  else if rowFinE14.hits raw then .decodeFinE14 (extractSign raw) (extractMant raw)
  else if rowFinE15_M0_3.hits raw then .decodeFinE15_M0_3 (extractSign raw) (extractMant raw)
  else if rowFinE15_M4_5.hits raw then .decodeFinE15_M4_5 (extractSign raw) (extractMant raw)
  else if rowFinE15_M6.hits raw then .decodeFinE15_M6 (extractSign raw)
  else .decodeNan (extractSign raw)

/-- Why the decoder reads no instruction. -/
inductive DecodeReject where
  /-- No byte is there: the block takes exactly 8 bits (20_memory.md R33). Safe (log 11). -/
  | noInput
deriving DecidableEq, Repr

/-- Reads one instruction from the front of a list of bytes and answers it with the rest. Total: only the empty list is
rejected, because every byte is a valid input (R45). -/
def decode : List Byte → Except DecodeReject (Instr × List Byte)
  | [] => .error .noInput
  | raw :: rest => .ok (decodeByte raw, rest)

/-- The instruction of the opcode-table word `w`: the table's rows are 8 bits wide, and a number that is not 8 bits is no
input of the block (92_eei_decisions.md D9). -/
def decodeTableWord (nbits w : Nat) : Option Instr :=
  if nbits = 8 ∧ w < 256 then
    match decode [BitVec.ofNat 8 w] with
    | .ok (i, _) => some i
    | .error _ => none
  else none

/-! ## The encoder -/

/-- The byte with the given fields, most significant first: `seeeemmm` (R40). -/
def packByte (sign : Sign) (exp : ExpIdx) (mant : Mant) : Byte := sign ++ exp ++ mant

/-- The byte of an instruction, from the patterns of R47. -/
def encodeByte : Instr → Byte
  | .decodeFinE0_7 sign exp mant => packByte sign exp mant
  | .decodeFinE8_11 sign exp mant => packByte sign exp mant
  | .decodeFinE12_13 sign exp mant => packByte sign exp mant
  | .decodeFinE14 sign mant => packByte sign 14#4 mant
  | .decodeFinE15_M0_3 sign mant => packByte sign 15#4 mant
  | .decodeFinE15_M4_5 sign mant => packByte sign 15#4 mant
  | .decodeFinE15_M6 sign => packByte sign 15#4 6#3
  | .decodeNan sign => packByte sign 15#4 7#3

/-- The words of an instruction: one byte (R48). -/
def encode (i : Instr) : List Byte := [encodeByte i]

end Sys2Proof
end

