-- ==== Sys2Proof/Machine/Rom.lean ====
section
/-!
DEFINITION. The contents of the rebias table (spec/42_rebias_table.md): the sixteen constants of R62, and the
construction formula of R61 they are evaluated from.
-/

namespace Sys2Proof.Machine

/-- R62: the sixteen entries, index 0 first. The literals the formula rests on are unaudited (log 9), and index 0 has no
zero or subnormal path (R65; log 6). -/
def rebiasRom : Rom :=
  #v[0x3C000000#32, 0x3C800000#32, 0x3D000000#32, 0x3D800000#32,
     0x3E000000#32, 0x3E800000#32, 0x3F000000#32, 0x3F800000#32,
     0x40000000#32, 0x40800000#32, 0x41000000#32, 0x41800000#32,
     0x42000000#32, 0x42800000#32, 0x43000000#32, 0x43800000#32]

/-- R61: `(uint)(i - 7 + 127) << 23`, the sum on integers, then cast to 32 bits, then shifted. -/
def rebiasFormula (i : Nat) : Word :=
  BitVec.ofInt 32 ((i : Int) - Config.biasIn + Config.biasOut) <<< Config.expShift

end Sys2Proof.Machine
end

