-- ==== Sys2Proof/Machine/State.lean ====
section
/-!
DEFINITION. The machine's state, as plain data (spec/10_state.md R29 lists all the spec gives it), and its value at reset.
The internal nets of R23 are functions of this state (Operands.lean, Flags.lean, Ops.lean).
-/

namespace Sys2Proof.Machine

/-- The state of the block and of the input that is still to come. -/
structure State where
  /-- `REBIAS[0..15]` (R24): the block's only stored state. Nothing writes it (R25; log 7). -/
  rebias : Rom
  /-- `raw_i` (R21): the byte now on the input port. -/
  rawI : Byte
  /-- `f32_o` (R22): the settled word on the output port, not a latch (R26; log 2). -/
  f32O : Word
  /-- The model's own field: the bytes the environment will apply to `raw_i`, oldest first, a stimulus program (R14,
  30_encoding.md R49; DESIGN CHOICE, log 3). -/
  stimulus : List Byte
deriving DecidableEq, Repr

/-- Why a step could fault. The type has no constructor: the block raises no exception for any input (60_exceptions.md
R85), so no meaning can answer a fault (DEDUCED, log 13: safe). -/
inductive Fault where
deriving DecidableEq, Repr

/-- Why a step could be refused. -/
inductive Refusal where
  /-- An instruction with no meaning yet, raised only by an arm of exec in Machine/Dispatch.lean; safe. No arm raises it:
  every instruction has its meaning (log 13). -/
  | notModelled (mnemonic : String)
deriving DecidableEq, Repr

/-- The machine after reset or power-up (R29, 70_reset_and_hazards.md R95): the ROM holds its constants; the environment
drives `raw_i`, for which 0x00 is a DESIGN CHOICE (log 1, unsafe); `f32_o` is DECODE of it, once settled (log 2); no byte
is waiting (log 3). -/
def State.reset : State where
  rebias := rebiasRom
  rawI := 0x00#8
  f32O := 0x3C000000#32
  stimulus := []

end Sys2Proof.Machine
end

