-- ==== Sys2Proof/Machine/Operands.lean ====
section
/-!
DEFINITION. The block's only operand, the whole input byte (spec/30_encoding.md R42), seen through the extractor: the nets
`sign`, `exp_idx` and `mant` of 10_state.md R23. There are no other operand forms.
-/

namespace Sys2Proof.Machine

/-- The net `sign` (R51). -/
def State.signNet (s : State) : Sign := extractSign s.rawI

/-- The net `exp_idx` (R52). -/
def State.expIdxNet (s : State) : ExpIdx := extractExp s.rawI

/-- The net `mant` (R53). -/
def State.mantNet (s : State) : Mant := extractMant s.rawI

end Sys2Proof.Machine
end

