-- ==== Sys2Proof/Machine/Flags.lean ====
section
/-!
DEFINITION. The block has no flags and no condition codes (spec/10_state.md R20, 43_compose_mux.md R74). The one condition
it computes is the net `is_nan` (R73), which selects the multiplexer's input.
-/

namespace Sys2Proof.Machine

/-- R73: `is_nan <- (exp_idx == 0xF) && (mant == 0x7)`. -/
def isNan (exp : ExpIdx) (mant : Mant) : Bool := exp == Config.nanInExp && mant == Config.nanInMant

/-- The byte is a NaN encoding (30_encoding.md R43). -/
def isNanByte (raw : Byte) : Bool := isNan (extractExp raw) (extractMant raw)

/-- The net `is_nan` (R23). -/
def State.isNanNet (s : State) : Bool := isNan s.expIdxNet s.mantNet

end Sys2Proof.Machine
end

