-- ==== Sys2Proof/Machine/Float32.lean ====
section
/-!
DEFINITION. The float32 layout of the output (spec/00_scope.md R13, 30_encoding.md R46), the NaN class and `NAN_BITS`
(43_compose_mux.md R73).
-/

namespace Sys2Proof.Machine

/-- The float32 word with the given fields: sign in bit 31, exponent field in 30:23, fraction in 22:0 (R13). -/
def pack32 (sign : BitVec 1) (exp : BitVec 8) (frac : BitVec 23) : Word := sign ++ exp ++ frac

/-- Bit 31 (R13). -/
def f32Sign (w : Word) : BitVec 1 := w.extractLsb' 31 1

/-- Bits 30:23 (R13). -/
def f32Exp (w : Word) : BitVec 8 := w.extractLsb' 23 8

/-- Bits 22:0 (R13). -/
def f32Frac (w : Word) : BitVec 23 := w.extractLsb' 0 23

/-- The classes of float32 patterns. PRESUMED: the spec's own general knowledge GK1 (R13; log 10), unsafe for claims
about classes only. -/
inductive F32Class where
  | zeroOrSubnormal
  | normal
  | infinity
  | nan
deriving DecidableEq, Repr

/-- The class of a pattern (93_implementation_defined.md GK1). -/
def f32Class (w : Word) : F32Class :=
  if f32Exp w = 0xFF#8 then (if f32Frac w = 0#23 then .infinity else .nan)
  else if f32Exp w = 0#8 then .zeroOrSubnormal
  else .normal

/-- The NaN pattern with the given sign and the `k + 1`-th fraction: exponent field 0xFF, fraction not zero (R73). Every
NaN pattern is one of these. -/
def nanPattern (sign : BitVec 1) (k : Fin 8388607) : Word :=
  pack32 sign 0xFF#8 (BitVec.ofNat 23 (k.val + 1))

/-- `NAN_BITS` (R6, R73): a float32 NaN pattern of which nothing else is known (log 4). -/
def nanBits : Word := nanPattern Config.nanSign Config.nanFraction

end Sys2Proof.Machine
end

