-- ==== Sys2Proof/Machine/Ops.lean ====
section
/-!
DEFINITION. The operations the instructions share: the ROM's read port (spec/42_rebias_table.md R64), the field placements
and the composition (43_compose_mux.md R70 to R74), driving the output port (10_state.md R22), and the environment's
application of an input (10_state.md R21, 30_encoding.md R49).

There is no operation that takes an exception and none that returns from one: the block has no traps (60_exceptions.md
R85, R89). There is no memory operation: the block has no memory (20_memory.md R30).
-/

namespace Sys2Proof.Machine

/-! ## The rebias table -/

/-- The ROM's one read port (R25, R64): `exp_bits <- REBIAS[exp_idx]`. Every 4-bit index is in range. -/
def romRead (rom : Rom) (exp : ExpIdx) : Word := rom[exp.toNat]'exp.isLt

/-! ## Field placement and composition -/

/-- R70: `sign_bits <- zext_32(sign) << 31`. -/
def placeSign (sign : Sign) : Word := sign.setWidth 32 <<< Config.signPos

/-- R71: `mant_bits <- zext_32(mant) << 20`. -/
def placeMant (mant : Mant) : Word := mant.setWidth 32 <<< Config.mantShift

/-- R74, step 6: `composed = sign_bits | exp_bits | mant_bits`. -/
def compose (rom : Rom) (sign : Sign) (exp : ExpIdx) (mant : Mant) : Word :=
  placeSign sign ||| romRead rom exp ||| placeMant mant

/-- R74: DECODE as the spec's pseudocode has it, for every byte at once, before the split of R47 into rows. -/
def decodeOp (rom : Rom) (raw : Byte) : Word :=
  if isNan (extractExp raw) (extractMant raw) then nanBits
  else compose rom (extractSign raw) (extractExp raw) (extractMant raw)

/-- DECODE over the ROM's constants (R62): the word the block outputs for a byte. -/
def decodeWord (raw : Byte) : Word := decodeOp rebiasRom raw

/-! ## The remaining nets of R23 -/

/-- The net `exp_bits`. The lookup takes place for every input, the NaN encodings too (R64). -/
def State.expBitsNet (s : State) : Word := romRead s.rebias s.expIdxNet

/-- The net `sign_bits`. -/
def State.signBitsNet (s : State) : Word := placeSign s.signNet

/-- The net `mant_bits`. -/
def State.mantBitsNet (s : State) : Word := placeMant s.mantNet

/-- The net `composed`. -/
def State.composedNet (s : State) : Word := s.signBitsNet ||| s.expBitsNet ||| s.mantBitsNet

/-! ## The output port -/

/-- `out f32_o <- w` (R11, R22): the output wires settle at `w`. Bits are passed on unchanged (R79). -/
def driveOutput (w : Word) (s : State) : State := { s with f32O := w }

/-- The finite path of the multiplexer (R74): the output is the composed word. -/
def finitePath (sign : Sign) (exp : ExpIdx) (mant : Mant) (s : State) : Host.Outcome State Fault Refusal :=
  .next (driveOutput (compose s.rebias sign exp mant) s)

/-- The NaN path of the multiplexer (R73): the output is `NAN_BITS`, whatever the sign (R75). -/
def nanPath (s : State) : Host.Outcome State Fault Refusal := .next (driveOutput nanBits s)

/-! ## The input port -/

/-- The environment's part of a step: it puts the oldest waiting byte on `raw_i` and, when none is waiting, holds `raw_i`
(R49, R98; DESIGN CHOICE, log 3). -/
def applyInput (s : State) : State :=
  match s.stimulus with
  | [] => s
  | raw :: rest => { s with rawI := raw, stimulus := rest }

/-- Adds a byte that the environment applies next, before those that wait already. -/
def pushInput (raw : Byte) (s : State) : State := { s with stimulus := raw :: s.stimulus }

/-- What an observer reads on `f32_o` the time `t` after `raw_i` last changed: nothing before `T_PD`, when the output is
undefined, and the settled word from then on (70_reset_and_hazards.md R98; DESIGN CHOICE, log 5: safe). -/
def State.sample (s : State) (t : Nat) : Option Word := if Config.tPd ≤ t then some s.f32O else none

end Sys2Proof.Machine
end

