-- ==== Sys2Proof/Machine/Finite.lean ====
section
/-!
DEFINITION. The meanings of the seven finite rows of the decode map (spec/30_encoding.md R47): the finite path of
43_compose_mux.md R74.
-/

namespace Sys2Proof.Machine

/-- `DECODE.FIN.E0_7` (R74): exponent field 0 to 7. -/
def execDecodeFinE0_7 (sign : Sign) (exp : ExpIdx) (mant : Mant) (s : State) : Host.Outcome State Fault Refusal :=
  finitePath sign exp mant s

/-- `DECODE.FIN.E8_11` (R74): exponent field 8 to 11. -/
def execDecodeFinE8_11 (sign : Sign) (exp : ExpIdx) (mant : Mant) (s : State) : Host.Outcome State Fault Refusal :=
  finitePath sign exp mant s

/-- `DECODE.FIN.E12_13` (R74): exponent field 12 or 13. -/
def execDecodeFinE12_13 (sign : Sign) (exp : ExpIdx) (mant : Mant) (s : State) : Host.Outcome State Fault Refusal :=
  finitePath sign exp mant s

/-- `DECODE.FIN.E14` (R74): exponent field 14. -/
def execDecodeFinE14 (sign : Sign) (mant : Mant) (s : State) : Host.Outcome State Fault Refusal :=
  finitePath sign 14#4 mant s

/-- `DECODE.FIN.E15_M0_3` (R74): exponent field 15, mantissa 0 to 3. -/
def execDecodeFinE15_M0_3 (sign : Sign) (mant : Mant) (s : State) : Host.Outcome State Fault Refusal :=
  finitePath sign 15#4 mant s

/-- `DECODE.FIN.E15_M4_5` (R74): exponent field 15, mantissa 4 or 5. -/
def execDecodeFinE15_M4_5 (sign : Sign) (mant : Mant) (s : State) : Host.Outcome State Fault Refusal :=
  finitePath sign 15#4 mant s

/-- `DECODE.FIN.E15_M6` (R74): exponent field 15, mantissa 6, the largest finite magnitude. -/
def execDecodeFinE15_M6 (sign : Sign) (s : State) : Host.Outcome State Fault Refusal :=
  finitePath sign 15#4 6#3 s

end Sys2Proof.Machine
end

