-- ==== Sys2Proof/Machine/Nan.lean ====
section
/-!
DEFINITION. The meaning of the NaN row of the decode map (spec/30_encoding.md R43, R47): the NaN path of
43_compose_mux.md R73. It is no exception (60_exceptions.md R85).
-/

namespace Sys2Proof.Machine

/-- `DECODE.NAN` (R73): the output is `NAN_BITS`; the sign operand has no effect (R75). -/
def execDecodeNan (_sign : Sign) (s : State) : Host.Outcome State Fault Refusal := nanPath s

end Sys2Proof.Machine
end

