-- ==== Sys2Proof/Machine/Dispatch.lean ====
section
/-! DEFINITION. One arm per instruction: its meaning. -/

namespace Sys2Proof.Machine

def exec (i : Instr) (s : State) : Host.Outcome State Fault Refusal :=
  match i with
  | .decodeFinE0_7 sign exp mant => Sys2Proof.Machine.execDecodeFinE0_7 sign exp mant s
  | .decodeFinE8_11 sign exp mant => Sys2Proof.Machine.execDecodeFinE8_11 sign exp mant s
  | .decodeFinE12_13 sign exp mant => Sys2Proof.Machine.execDecodeFinE12_13 sign exp mant s
  | .decodeFinE14 sign mant => Sys2Proof.Machine.execDecodeFinE14 sign mant s
  | .decodeFinE15_M0_3 sign mant => Sys2Proof.Machine.execDecodeFinE15_M0_3 sign mant s
  | .decodeFinE15_M4_5 sign mant => Sys2Proof.Machine.execDecodeFinE15_M4_5 sign mant s
  | .decodeFinE15_M6 sign => Sys2Proof.Machine.execDecodeFinE15_M6 sign s
  | .decodeNan sign => Sys2Proof.Machine.execDecodeNan sign s

end Sys2Proof.Machine
end

