-- ==== Sys2Proof/Machine/Step.lean ====
section
/-!
DEFINITION. One step: one application of an input byte (spec/00_scope.md R2, 30_encoding.md R49). The environment applies
the byte, the decode map picks its row, the row's meaning drives the output. There is no program counter (10_state.md R20).
-/

namespace Sys2Proof.Machine

/-- One DECODE of the byte that is on `raw_i` after the environment has applied the next input. Always enabled
(70_reset_and_hazards.md R101). -/
def step (s : State) : Host.Outcome State Fault Refusal :=
  exec (decodeByte (applyInput s).rawI) (applyInput s)

/-- The state in which the byte `w` is the next input the environment applies: the load of a program from outside the
machine (log 3). DESIGN CHOICE, log 14 (unsafe for claims about such numbers only): a number that is not 8 bits is loaded
all the same, `nbits` unused and `w` taken modulo 256 (0x138 is loaded as 0x38), where 92_eei_decisions.md D9 has an input
that is not `bits(8)` refused. The refusal of such words is `decodeTableWord`'s (log 11). -/
def State.withFetchWord (s : State) (_nbits w : Nat) : State := pushInput (BitVec.ofNat 8 w) s

end Sys2Proof.Machine
end

