-- ==== Sys2Proof/Machine/Value.lean ====
section
/-!
DEFINITION. The number a pattern denotes (spec/43_compose_mux.md R78). The block outputs bits and does no arithmetic on
them (00_scope.md R4); these definitions only let a statement say that the decode is exact (R77).
-/

namespace Sys2Proof.Machine

/-- The value of a normal float32 pattern: `(-1)^s * 2^(e-127) * (1 + f/2^23)`. PRESUMED: the spec's general knowledge
GK1 (log 10), unsafe for claims about values only. -/
def f32Value (w : Word) : ℚ :=
  (-1) ^ (f32Sign w).toNat * (2 : ℚ) ^ (((f32Exp w).toNat : ℤ) - 127) * (1 + ((f32Frac w).toNat : ℚ) / 2 ^ 23)

/-- The value of a finite E4M3 byte: `(-1)^sign * 2^(exp_idx - 7) * (1 + mant / 8)` (R78). -/
def e4m3Value (raw : Byte) : ℚ :=
  (-1) ^ (extractSign raw).toNat * (2 : ℚ) ^ (((extractExp raw).toNat : ℤ) - 7)
    * (1 + ((extractMant raw).toNat : ℚ) / 8)

end Sys2Proof.Machine
end

