-- ==== Sys2Proof/Safety.lean ====
section
/-!
DEFINITION. The terms claims use: the invariant of the machine, and what any number of steps answers.
-/

namespace Sys2Proof.Machine

/-- The ROM holds the constants of spec/42_rebias_table.md R62, as it does in every state of the hardware (10_state.md
R25). A premise, because State could hold other words there (log 7). -/
abbrev State.RomIntact (s : State) : Prop := s.rebias = rebiasRom

/-- The output is DECODE of the input, as it is whenever it has settled (10_state.md R26, 70_reset_and_hazards.md R98). -/
abbrev State.Settled (s : State) : Prop := s.f32O = decodeWord s.rawI

/-- The invariant of the block. -/
abbrev State.Inv (s : State) : Prop := s.RomIntact ∧ s.Settled

/-- The byte is no NaN encoding: it is one of the 254 finite encodings (30_encoding.md R44). -/
abbrev FiniteByte (raw : Byte) : Prop := isNanByte raw = false

/-- What `k` steps answer, stopping at the first that gives no next state. -/
def stepN : Nat → State → Host.Outcome State Fault Refusal
  | 0, s => .next s
  | k + 1, s =>
    match step s with
    | .next t => stepN k t
    | .fault r => .fault r
    | .refused r => .refused r

end Sys2Proof.Machine
end

