-- ==== Sys2Proof/Certificates/Slice0/Obligations.lean ====
section
/-!
DEFINITION. The statements for the provers. Where a statement needs the ROM's contents it assumes `State.RomIntact`, which
holds at reset (`Obligations.ResetMeetsTheInvariant`) and is kept by every step (`Obligations.StepKeepsTheInvariant`).
Every statement that covers exponent field 0 rests on the spec's decision D5 that it has no zero or subnormal path (log 6).
Where a statement speaks of a step, the byte a step applies, the bytes that wait and the input held when none waits are the
model's form of the environment (`stimulus`; DESIGN CHOICE, log 3).
-/

open Sys2Proof Sys2Proof.Machine

/-! ## The rebias table -/

/-- R61: every entry is `(uint)(i - 7 + 127) << 23`, which is `(i + 120) << 23`. -/
def Obligations.RebiasTableIsTheFormula : Prop :=
  ∀ s : State, s.RomIntact → ∀ i : Fin 16,
    s.rebias[i] = BitVec.ofInt 32 ((i.val : Int) - 7 + 127) <<< 23 ∧
    s.rebias[i] = BitVec.ofNat 32 (i.val + 120) <<< 23

/-- R62 and R63, which the spec derives from R61: an entry is its exponent field alone, 120 plus the index, between 120 and
135, and read alone it is the number `2^(i-7)`; the integer under the cast is not negative. -/
def Obligations.RebiasEntriesAreExponentFieldsAlone : Prop :=
  ∀ s : State, s.RomIntact → ∀ exp : ExpIdx,
    0 ≤ (exp.toNat : Int) - 7 + 127 ∧
    (f32Exp (romRead s.rebias exp)).toNat = exp.toNat + 120 ∧
    120 ≤ (f32Exp (romRead s.rebias exp)).toNat ∧ (f32Exp (romRead s.rebias exp)).toNat ≤ 135 ∧
    f32Sign (romRead s.rebias exp) = 0#1 ∧ f32Frac (romRead s.rebias exp) = 0#23 ∧
    f32Class (romRead s.rebias exp) = .normal ∧
    f32Value (romRead s.rebias exp) = (2 : ℚ) ^ ((exp.toNat : ℤ) - 7)

/-- R65: the entry of index 0 is the plain formula, and exponent field 0 is composed through it like every other field,
with no clamp and no zero or subnormal path. -/
def Obligations.ExponentFieldZeroHasNoSpecialPath : Prop :=
  ∀ s : State, s.RomIntact →
    (∀ exp : ExpIdx, romRead s.rebias exp = BitVec.ofInt 32 ((exp.toNat : Int) - 7 + 127) <<< 23) ∧
    ∀ (sign : Sign) (mant : Mant),
      exec (.decodeFinE0_7 sign 0#4 mant) s = .next { s with f32O := pack32 sign 120#8 (mant ++ 0#20) }

/-- R25 and R66: no instruction, no number of steps, no applied input and no reset changes the ROM. It holds in every
state, whatever words the ROM holds. -/
def Obligations.RomIsNeverWritten : Prop :=
  (∀ (i : Instr) (s t : State), exec i s = .next t → t.rebias = s.rebias) ∧
  (∀ (k : Nat) (s t : State), stepN k s = .next t → t.rebias = s.rebias) ∧
  (∀ (s : State) (nbits w : Nat), (s.withFetchWord nbits w).rebias = s.rebias) ∧
  State.reset.RomIntact

/-! ## The extractor and the encoding -/

/-- R51, R52, R53: each field is the slice of the input the rule names, and equally the rule's shift and mask. Then the
rules' corner cases (the NaN path does not use the sign; mantissa 7 is special with exponent field 0xF alone) and their
examples. -/
def Obligations.ExtractorSelectsTheFields : Prop :=
  ∀ s : State,
    (s.signNet = s.rawI.extractLsb' 7 1 ∧ s.signNet.toNat = ((s.rawI >>> 7) &&& 0x1#8).toNat) ∧
    (s.expIdxNet = s.rawI.extractLsb' 3 4 ∧ s.expIdxNet.toNat = ((s.rawI >>> 3) &&& 0xF#8).toNat) ∧
    (s.mantNet = s.rawI.extractLsb' 0 3 ∧ s.mantNet.toNat = (s.rawI &&& 0x7#8).toNat) ∧
    (∀ a b : Sign, exec (.decodeNan a) s = exec (.decodeNan b) s) ∧
    (∀ exp : ExpIdx, isNan exp 0x7#3 = true ↔ exp = 0xF#4) ∧
    extractSign 0xB8#8 = 1#1 ∧ extractExp 0x38#8 = 7#4 ∧ extractExp 0xFF#8 = 0xF#4 ∧ extractMant 0x7E#8 = 6#3

/-- R54, which the spec derives from R51 to R53: the fields put together again are the input, and the extraction is a
bijection between the bytes and the triples of fields. -/
def Obligations.ExtractorIsABijection : Prop :=
  (∀ raw : Byte, raw = ((extractSign raw).setWidth 8 <<< 7) ||| ((extractExp raw).setWidth 8 <<< 3)
    ||| (extractMant raw).setWidth 8) ∧
  Function.Bijective fun raw : Byte => (extractSign raw, extractExp raw, extractMant raw)

/-- The NaN encodings are the bytes with exponent field 0xF and mantissa field 0x7; those are 0x7F and 0xFF (R43), they are
the bytes that decode to the NaN row (R47, which the spec derives), and they are the bytes, all 256 considered, whose output
is `NAN_BITS` (R73). That no finite output is `NAN_BITS` rests on the constraint on that free value (D4, log 4) and so on the
spec's general knowledge GK1 (log 10). -/
def Obligations.NanEncodingsAreTwoBytes : Prop :=
  ∀ raw : Byte,
    (isNanByte raw = true ↔ raw.extractLsb' 3 4 = 0xF#4 ∧ raw.extractLsb' 0 3 = 0x7#3) ∧
    (isNanByte raw = true ↔ raw = 0x7F#8 ∨ raw = 0xFF#8) ∧
    (isNanByte raw = true ↔ decodeByte raw = .decodeNan (extractSign raw)) ∧
    (isNanByte raw = true ↔ decodeWord raw = nanBits)

/-- R45: every byte decodes, whatever follows it, to a well-formed instruction, and that instruction runs in every state. -/
def Obligations.EveryByteIsAValidInput : Prop :=
  ∀ (raw : Byte) (rest : List Byte), ∃ i : Instr,
    decode (raw :: rest) = .ok (i, rest) ∧ i.wf = true ∧ ∀ s : State, ∃ t : State, exec i s = .next t

/-- R47, which the spec derives from R43 and R44: a byte decodes to a row exactly when its bits under the row's mask are the
row's pattern, with the byte's own fields. -/
def Obligations.DecodeMapSelectsTheRow : Prop :=
  ∀ raw : Byte,
    (raw &&& 0x40#8 = 0x00#8 ↔
      decodeByte raw = .decodeFinE0_7 (extractSign raw) (extractExp raw) (extractMant raw)) ∧
    (raw &&& 0x60#8 = 0x40#8 ↔
      decodeByte raw = .decodeFinE8_11 (extractSign raw) (extractExp raw) (extractMant raw)) ∧
    (raw &&& 0x70#8 = 0x60#8 ↔
      decodeByte raw = .decodeFinE12_13 (extractSign raw) (extractExp raw) (extractMant raw)) ∧
    (raw &&& 0x78#8 = 0x70#8 ↔ decodeByte raw = .decodeFinE14 (extractSign raw) (extractMant raw)) ∧
    (raw &&& 0x7C#8 = 0x78#8 ↔ decodeByte raw = .decodeFinE15_M0_3 (extractSign raw) (extractMant raw)) ∧
    (raw &&& 0x7E#8 = 0x7C#8 ↔ decodeByte raw = .decodeFinE15_M4_5 (extractSign raw) (extractMant raw)) ∧
    (raw &&& 0x7F#8 = 0x7E#8 ↔ decodeByte raw = .decodeFinE15_M6 (extractSign raw)) ∧
    (raw &&& 0x7F#8 = 0x7F#8 ↔ decodeByte raw = .decodeNan (extractSign raw))

/-- One word of each row, written out bit by bit from the row's pattern in R47. -/
def Obligations.SampleWordsDecode : Prop :=
  decodeTableWord 8 0b00111000 = some (.decodeFinE0_7 0#1 7#4 0#3) ∧
  decodeTableWord 8 0b11010101 = some (.decodeFinE8_11 1#1 10#4 5#3) ∧
  decodeTableWord 8 0b01101011 = some (.decodeFinE12_13 0#1 13#4 3#3) ∧
  decodeTableWord 8 0b11110111 = some (.decodeFinE14 1#1 7#3) ∧
  decodeTableWord 8 0b01111011 = some (.decodeFinE15_M0_3 0#1 3#3) ∧
  decodeTableWord 8 0b11111100 = some (.decodeFinE15_M4_5 1#1 4#3) ∧
  decodeTableWord 8 0b01111110 = some (.decodeFinE15_M6 0#1) ∧
  decodeTableWord 8 0b11111111 = some (.decodeNan 1#1)

/-- Decode and encode agree, both ways: every well-formed instruction, followed by any bytes, is read back from its words
with every operand; and every byte is the encoding of the well-formed instruction it decodes to. -/
def Obligations.DecodeAndEncodeAgree : Prop :=
  (∀ (i : Instr) (rest : List Byte), i.wf = true → decode (encode i ++ rest) = .ok (i, rest)) ∧
  (∀ (raw : Byte) (rest : List Byte), ∃ i : Instr,
    decode (raw :: rest) = .ok (i, rest) ∧ i.wf = true ∧ encode i = [raw])

/-! ## Placement and composition -/

/-- R70, R71: the sign goes to bit 31 and the mantissa to bits 22:20, every other bit zero. -/
def Obligations.SignAndMantissaArePlaced : Prop :=
  placeSign 1#1 = 0x80000000#32 ∧ placeSign 0#1 = 0x00000000#32 ∧
  ∀ mant : Mant,
    placeMant mant = mant.setWidth 32 <<< 20 ∧
    (placeMant mant).extractLsb' 20 3 = mant ∧
    placeMant mant &&& 0xFF8FFFFF#32 = 0#32

/-- R72, which the spec derives: over the intact ROM the three placed fields share no bit, and composing them is
concatenation. -/
def Obligations.ComposingIsConcatenation : Prop :=
  ∀ (s : State) (sign : Sign) (exp : ExpIdx) (mant : Mant), s.RomIntact →
    placeSign sign &&& romRead s.rebias exp = 0#32 ∧
    placeSign sign &&& placeMant mant = 0#32 ∧
    romRead s.rebias exp &&& placeMant mant = 0#32 ∧
    compose s.rebias sign exp mant = pack32 sign (exp.setWidth 8 + 120#8) (mant ++ 0#20)

/-! ## The instructions -/

/-- R46: each of the seven finite rows completes in every state with an intact ROM; the output is the sign in bit 31, the
exponent field plus 120 in bits 30:23, the mantissa in bits 22:20 and zero in bits 19:0, and nothing else changes. -/
def Obligations.FiniteRowsWriteTheFloat32Fields : Prop :=
  ∀ (s : State) (sign : Sign) (exp : ExpIdx) (mant : Mant), s.RomIntact →
    exec (.decodeFinE0_7 sign exp mant) s
      = .next { s with f32O := pack32 sign (exp.setWidth 8 + 120#8) (mant ++ 0#20) } ∧
    exec (.decodeFinE8_11 sign exp mant) s
      = .next { s with f32O := pack32 sign (exp.setWidth 8 + 120#8) (mant ++ 0#20) } ∧
    exec (.decodeFinE12_13 sign exp mant) s
      = .next { s with f32O := pack32 sign (exp.setWidth 8 + 120#8) (mant ++ 0#20) } ∧
    exec (.decodeFinE14 sign mant) s = .next { s with f32O := pack32 sign 134#8 (mant ++ 0#20) } ∧
    exec (.decodeFinE15_M0_3 sign mant) s = .next { s with f32O := pack32 sign 135#8 (mant ++ 0#20) } ∧
    exec (.decodeFinE15_M4_5 sign mant) s = .next { s with f32O := pack32 sign 135#8 (mant ++ 0#20) } ∧
    exec (.decodeFinE15_M6 sign) s = .next { s with f32O := pack32 sign 135#8 (6#3 ++ 0#20) }

/-- R73: the NaN row completes in every state, the output is `NAN_BITS` and nothing else changes; `NAN_BITS` is a float32
NaN. The NaN class is the spec's general knowledge GK1 (log 10), and the form of the free value is log 4. -/
def Obligations.NanRowOutputsNanBits : Prop :=
  (∀ (s : State) (sign : Sign), exec (.decodeNan sign) s = .next { s with f32O := nanBits }) ∧
  nanBits.extractLsb' 23 8 = 0xFF#8 ∧ nanBits.extractLsb' 0 23 ≠ 0#23 ∧ f32Class nanBits = .nan

/-- The space the free value `NAN_BITS` is drawn from (log 4) is that of R73: a word is one of the model's NaN patterns
exactly when its exponent field is 0xFF and its fraction is not zero. -/
def Obligations.NanPatternsAreExactlyTheNans : Prop :=
  ∀ w : Word, (w.extractLsb' 23 8 = 0xFF#8 ∧ w.extractLsb' 0 23 ≠ 0#23) ↔
    ∃ (sign : BitVec 1) (k : Fin 8388607), w = nanPattern sign k

/-- R75: the bytes 0x7F and 0xFF give the one output `NAN_BITS`, whatever state they are applied in. -/
def Obligations.NanOutputIgnoresTheSign : Prop :=
  ∀ s u : State, ∃ t v : State,
    step (pushInput 0x7F#8 s) = .next t ∧ step (pushInput 0xFF#8 u) = .next v ∧
    t.f32O = nanBits ∧ v.f32O = nanBits

/-- The frame of every instruction, in every state: it completes, and the ROM, the input port and the waiting inputs stay
as they are. -/
def Obligations.EveryInstructionChangesOnlyTheOutput : Prop :=
  ∀ (i : Instr) (s : State), ∃ t : State, exec i s = .next t ∧
    t.rebias = s.rebias ∧ t.rawI = s.rawI ∧ t.stimulus = s.stimulus

/-! ## The step -/

/-- A step runs the decoded instruction: when a byte waits (or, with none waiting, is held on `raw_i`) and decodes to an
instruction, the step is that instruction's meaning on the state in which the environment has applied the byte. -/
def Obligations.StepRunsTheDecodedInstruction : Prop :=
  ∀ (s : State) (raw : Byte) (i : Instr) (after : List Byte), decode (raw :: after) = .ok (i, after) →
    (∀ rest : List Byte, s.stimulus = raw :: rest → step s = exec i { s with rawI := raw, stimulus := rest }) ∧
    (s.stimulus = [] → s.rawI = raw → step s = exec i s)

/-- One step computes the pseudocode R74 gives DECODE on the applied byte, through whatever row of the decode map, and
changes nothing else but the input port and the waiting bytes; with no byte waiting it does so on the held input. That a
byte waits, is taken, or is held is the model's choice (log 3). The second part is the rule's corner cases and example, over
the intact ROM. -/
def Obligations.StepComputesDecode : Prop :=
  ∀ s : State,
    (∀ raw : Byte, ∀ rest : List Byte,
      (s.stimulus = raw :: rest ∨ s.stimulus = [] ∧ s.rawI = raw ∧ rest = []) →
      step s = .next { s with
        rawI := raw
        stimulus := rest
        f32O :=
          if (raw >>> 3) &&& 0xF#8 = 0xF#8 ∧ raw &&& 0x7#8 = 0x7#8 then nanBits
          else ((raw.extractLsb' 7 1).setWidth 32 <<< 31)
            ||| (s.rebias[((raw >>> 3) &&& 0xF#8).toNat]?).getD 0#32
            ||| ((raw &&& 0x7#8).setWidth 32 <<< 20) }) ∧
    (s.RomIntact →
      ∀ p ∈ [(0x00#8, 0x3C000000#32), (0x80#8, 0xBC000000#32), (0x7E#8, 0x43E00000#32), (0xFE#8, 0xC3E00000#32),
          (0x7F#8, nanBits), (0xFF#8, nanBits), (0x77#8, 0x43700000#32), (0x38#8, 0x3F800000#32)],
        ∃ t : State, step (pushInput p.1 s) = .next t ∧ t.f32O = p.2)

/-- A step is always enabled and completes with an output (R101): the first byte that waits is taken, and the output belongs
to the input now on the port. That a waiting byte is taken, and that `raw_i` is held when none waits, is the model's choice
(DESIGN CHOICE, log 3). -/
def Obligations.StepAlwaysCompletes : Prop :=
  ∀ s : State, ∃ t : State, step s = .next t ∧ t.stimulus = s.stimulus.tail ∧
    t.rawI = s.stimulus.head?.getD s.rawI ∧ t.f32O = decodeOp s.rebias t.rawI

/-- Any number of steps completes, and takes that many waiting bytes. That a step takes one waiting byte is the model's
choice (DESIGN CHOICE, log 3). -/
def Obligations.EveryRunCompletes : Prop :=
  ∀ (k : Nat) (s : State), ∃ t : State, stepN k s = .next t ∧ t.stimulus = s.stimulus.drop k

/-! ## Properties of the result -/

/-- R76, which the spec derives: on a byte that is no NaN encoding the output is finite, its exponent field in 120 to 135,
and its sign is bit 7 of the byte. -/
def Obligations.FiniteBytesGiveFiniteOutputs : Prop :=
  ∀ s : State, s.RomIntact → FiniteByte (applyInput s).rawI →
    ∃ t : State, step s = .next t ∧
      f32Sign t.f32O = t.rawI.extractLsb' 7 1 ∧
      120 ≤ (f32Exp t.f32O).toNat ∧ (f32Exp t.f32O).toNat ≤ 135 ∧ f32Class t.f32O = .normal

/-- R77 and R78, which the spec derives with its general knowledge GK1 (log 10): the decode is exact, the float32 number
of the output is the E4M3 number of the byte, between `2^-7` and 448 in magnitude. -/
def Obligations.FiniteDecodeIsExact : Prop :=
  ∀ s : State, s.RomIntact → FiniteByte (applyInput s).rawI →
    ∃ t : State, step s = .next t ∧ t.rawI = (applyInput s).rawI ∧
      f32Value t.f32O = e4m3Value t.rawI ∧
      (2 : ℚ) ^ (-7 : ℤ) ≤ |f32Value t.f32O| ∧ |f32Value t.f32O| ≤ 448

/-- R80: distinct finite inputs give distinct outputs, in whatever states they are applied. -/
def Obligations.FiniteDecodeIsInjective : Prop :=
  ∀ (s u t v : State), s.RomIntact → u.RomIntact →
    FiniteByte (applyInput s).rawI → FiniteByte (applyInput u).rawI →
    step s = .next t → step u = .next v → t.f32O = v.f32O → t.rawI = v.rawI

/-- 95_test_vectors.md section 2.3, sign symmetry: setting bit 7 of a byte from 0x00 to 0x7E sets bit 31 of the output. -/
def Obligations.SignBitIsCarriedOver : Prop :=
  ∀ (s t : State) (raw : Byte), s.RomIntact → raw.toNat ≤ 0x7E → step (pushInput raw s) = .next t →
    ∃ v : State, step (pushInput (raw ||| 0x80#8) s) = .next v ∧ v.f32O = t.f32O ||| 0x80000000#32

/-- 95_test_vectors.md section 2.3: over the inputs 0x00 to 0x7E the output grows strictly, as an unsigned number. -/
def Obligations.DecodeIsStrictlyIncreasing : Prop :=
  ∀ (s u : State) (a b : Byte), s.RomIntact → u.RomIntact → a.toNat < b.toNat → b.toNat ≤ 0x7E →
    ∃ t v : State, step (pushInput a s) = .next t ∧ step (pushInput b u) = .next v ∧ t.f32O.toNat < v.f32O.toNat

/-- Two states with the same ROM to which the same byte is applied give the same output, whatever they held before: an
input has no effect on a later output, and two instances do not interact. -/
def Obligations.OutputIgnoresEarlierInputs : Prop :=
  ∀ (s u : State) (raw : Byte), s.rebias = u.rebias →
    ∃ t v : State, step (pushInput raw s) = .next t ∧ step (pushInput raw u) = .next v ∧ t.f32O = v.f32O

/-- Whatever bytes are applied before it, the output after a byte of a stimulus program is DECODE of that byte (R80, R26),
and the bytes after it still wait. That bytes wait in a list and are applied one a step is the model's choice (DESIGN
CHOICE, log 3). -/
def Obligations.EachByteOfAStimulusIsDecoded : Prop :=
  ∀ (s : State) (before : List Byte) (raw : Byte) (rest : List Byte),
    s.RomIntact → s.stimulus = before ++ raw :: rest →
    stepN (before.length + 1) s = .next { s with rawI := raw, stimulus := rest, f32O := decodeWord raw }

/-- R98: while no byte waits, a settled state stays as it is, for any number of steps. That no waiting byte means a held
input is the model's choice (DESIGN CHOICE, log 3). -/
def Obligations.HeldInputKeepsTheOutput : Prop :=
  ∀ (s : State) (k : Nat), s.Inv → s.stimulus = [] → stepN k s = .next s

/-- R98: a reader gets no value before `T_PD` and, from then on, DECODE of the last applied byte, for as long as it is
held. That nothing at all is read before `T_PD`, and `T_PD` itself, are the model's (log 5), and so is
the list the byte waits in (log 3). -/
def Obligations.OnlySettledOutputsAreRead : Prop :=
  ∀ (s : State) (raw : Byte) (k : Nat), s.RomIntact → s.stimulus = [raw] →
    ∃ t : State, stepN (k + 1) s = .next t ∧
      ∀ time : Nat, t.sample time = if time < Config.tPd then none else some (decodeWord raw)

/-! ## The invariant -/

/-- A step from any state with an intact ROM, settled or not, ends in a state that meets the invariant; so every step keeps
the invariant. -/
def Obligations.StepKeepsTheInvariant : Prop :=
  ∀ s t : State, s.RomIntact → step s = .next t → t.Inv

/-- The state after reset meets the invariant: the ROM holds its constants and the output is DECODE of the input. The value
of the input at reset is the model's (log 1). -/
def Obligations.ResetMeetsTheInvariant : Prop := State.reset.Inv

/-- The invariant holds after any number of steps from any state that meets it. -/
def Obligations.InvariantHoldsAlongEveryRun : Prop :=
  ∀ (k : Nat) (s : State), s.Inv → ∃ t : State, stepN k s = .next t ∧ t.Inv
end

