-- ==== Sys2Proof/Laws/Decode.lean ====
section
/-!
SUPPORT. The extractor, the decode map and the encoder: the small lemmas of each.
-/

namespace Sys2Proof

@[simp] theorem extractSign_packByte (sign : Sign) (exp : ExpIdx) (mant : Mant) :
    extractSign (packByte sign exp mant) = sign := by
  revert sign exp mant; decide

@[simp] theorem extractExp_packByte (sign : Sign) (exp : ExpIdx) (mant : Mant) :
    extractExp (packByte sign exp mant) = exp := by
  revert sign exp mant; decide

@[simp] theorem extractMant_packByte (sign : Sign) (exp : ExpIdx) (mant : Mant) :
    extractMant (packByte sign exp mant) = mant := by
  revert sign exp mant; decide

@[simp] theorem decode_nil : decode [] = .error .noInput := rfl
@[simp] theorem decode_cons (raw : Byte) (rest : List Byte) : decode (raw :: rest) = .ok (decodeByte raw, rest) := rfl

/-- The last arm of the decode map is reached only by bytes its row hits. -/
theorem decode_nan_hit (raw : Byte) (h : ∀ r ∈ decodeRows.take 7, r.hits raw = false) : rowNan.hits raw = true := by
  revert raw; decide

/-- The row of the instruction a byte decodes to hits that byte. -/
theorem decodeByte_row_hits (raw : Byte) : (decodeByte raw).row.hits raw = true := by
  revert raw; decide

/-- No two rows of the decode map hit one byte. -/
theorem decodeRows_disjoint : decodeRows.Pairwise fun r q => ∀ raw : Byte, (r.hits raw && q.hits raw) = false := by
  decide

end Sys2Proof
end

