-- ==== Sys2Proof/Laws/State.lean ====
section
/-!
SUPPORT. One lemma per field per update of State, true by rfl, so that no later proof unfolds a record update.
-/

namespace Sys2Proof.Machine

@[simp] theorem driveOutput_rebias (w : Word) (s : State) : (driveOutput w s).rebias = s.rebias := rfl
@[simp] theorem driveOutput_rawI (w : Word) (s : State) : (driveOutput w s).rawI = s.rawI := rfl
@[simp] theorem driveOutput_f32O (w : Word) (s : State) : (driveOutput w s).f32O = w := rfl
@[simp] theorem driveOutput_stimulus (w : Word) (s : State) : (driveOutput w s).stimulus = s.stimulus := rfl

@[simp] theorem pushInput_rebias (raw : Byte) (s : State) : (pushInput raw s).rebias = s.rebias := rfl
@[simp] theorem pushInput_rawI (raw : Byte) (s : State) : (pushInput raw s).rawI = s.rawI := rfl
@[simp] theorem pushInput_f32O (raw : Byte) (s : State) : (pushInput raw s).f32O = s.f32O := rfl
@[simp] theorem pushInput_stimulus (raw : Byte) (s : State) : (pushInput raw s).stimulus = raw :: s.stimulus := rfl

theorem withFetchWord_eq_pushInput (s : State) (nbits w : Nat) :
    s.withFetchWord nbits w = pushInput (BitVec.ofNat 8 w) s := rfl

/-- The loaded byte is the number modulo 256, whatever the number of bits (log 14). -/
theorem withFetchWord_mod (s : State) (nbits w : Nat) : s.withFetchWord nbits w = s.withFetchWord 8 (w % 256) := by
  have h : BitVec.ofNat 8 w = BitVec.ofNat 8 (w % 256) := BitVec.eq_of_toNat_eq (by simp)
  simp only [withFetchWord_eq_pushInput, h]

/-- With no byte waiting, the input is held. -/
theorem applyInput_of_empty {s : State} (h : s.stimulus = []) : applyInput s = s := by
  simp only [applyInput, h]

/-- With a byte waiting, it goes on `raw_i` and leaves the list; nothing else changes. -/
theorem applyInput_of_waiting {s : State} {raw : Byte} {rest : List Byte} (h : s.stimulus = raw :: rest) :
    applyInput s = { s with rawI := raw, stimulus := rest } := by
  simp only [applyInput, h]

@[simp] theorem applyInput_rebias (s : State) : (applyInput s).rebias = s.rebias := by
  unfold applyInput; split <;> rfl
@[simp] theorem applyInput_f32O (s : State) : (applyInput s).f32O = s.f32O := by
  unfold applyInput; split <;> rfl
@[simp] theorem applyInput_stimulus (s : State) : (applyInput s).stimulus = s.stimulus.tail := by
  unfold applyInput; split <;> simp [*]
@[simp] theorem applyInput_rawI (s : State) : (applyInput s).rawI = s.stimulus.head?.getD s.rawI := by
  unfold applyInput; split <;> simp [*]

@[simp] theorem applyInput_pushInput (raw : Byte) (s : State) :
    applyInput (pushInput raw s) = { s with rawI := raw } := rfl

@[simp] theorem reset_rebias : State.reset.rebias = rebiasRom := rfl
@[simp] theorem reset_stimulus : State.reset.stimulus = [] := rfl

end Sys2Proof.Machine
end

