-- ==== Sys2Proof/Laws/Ops.lean ====
section
/-!
SUPPORT. One lemma per shared operation, saying all it can do; later proofs cite it rather than unfold the operation.
-/

namespace Sys2Proof.Machine

/-- The finite path always answers, and only the output changes. -/
theorem finitePath_eq_next {sign : Sign} {exp : ExpIdx} {mant : Mant} {s t : State} :
    finitePath sign exp mant s = .next t ↔ t = driveOutput (compose s.rebias sign exp mant) s := by
  simp only [finitePath, Host.Outcome.next.injEq, eq_comm]

/-- The NaN path always answers, and only the output changes. -/
theorem nanPath_eq_next {s t : State} : nanPath s = .next t ↔ t = driveOutput nanBits s := by
  simp only [nanPath, Host.Outcome.next.injEq, eq_comm]

/-- An entry of the intact ROM is its exponent field, the index plus 120, in place (R61). -/
theorem romRead_rebiasRom (exp : ExpIdx) : romRead rebiasRom exp = pack32 0#1 (exp.setWidth 8 + 120#8) 0#23 := by
  revert exp; decide

theorem placeSign_eq (sign : Sign) : placeSign sign = pack32 sign 0#8 0#23 := by
  revert sign; decide

theorem placeMant_eq (mant : Mant) : placeMant mant = pack32 0#1 0#8 (mant ++ 0#20) := by
  revert mant; decide

@[simp] theorem isNan_iff (exp : ExpIdx) (mant : Mant) : isNan exp mant = true ↔ exp = 0xF#4 ∧ mant = 0x7#3 := by
  simp [isNan]

theorem decodeOp_of_nan {rom : Rom} {raw : Byte} (h : isNanByte raw = true) : decodeOp rom raw = nanBits :=
  if_pos h

theorem decodeOp_of_finite {rom : Rom} {raw : Byte} (h : isNanByte raw = false) :
    decodeOp rom raw = compose rom (extractSign raw) (extractExp raw) (extractMant raw) :=
  if_neg (Bool.eq_false_iff.mp h)

/-- The net `composed` is the composition of the three placed fields of the input on `raw_i`. -/
theorem composedNet_eq (s : State) :
    s.composedNet = compose s.rebias s.signNet s.expIdxNet s.mantNet := rfl

/-- The output port as a multiplexer over the nets: `is_nan ? NAN_BITS : composed` (R74). -/
theorem decodeOp_rawI_eq_mux (s : State) :
    decodeOp s.rebias s.rawI = if s.isNanNet then nanBits else s.composedNet := rfl

/-- Once the output has settled, a reader gets it. -/
theorem sample_of_settled {s : State} {time : Nat} (h : Config.tPd ≤ time) : s.sample time = some s.f32O := if_pos h

/-- While the output settles, a reader gets nothing. -/
theorem sample_of_settling {s : State} {time : Nat} (h : time < Config.tPd) : s.sample time = none :=
  if_neg (Nat.not_le.mpr h)

/-! ## The float32 fields -/

@[simp] theorem f32Sign_pack32 (sign : BitVec 1) (exp : BitVec 8) (frac : BitVec 23) :
    f32Sign (pack32 sign exp frac) = sign := by
  ext i hi
  simp only [f32Sign, pack32, BitVec.getElem_extractLsb', BitVec.getLsbD_append]
  simp [show ¬ 31 + i < 23 by omega, show ¬ 31 + i - 23 < 8 by omega, show 31 + i - 23 - 8 = i by omega, hi]

@[simp] theorem f32Exp_pack32 (sign : BitVec 1) (exp : BitVec 8) (frac : BitVec 23) :
    f32Exp (pack32 sign exp frac) = exp := by
  ext i hi
  simp only [f32Exp, pack32, BitVec.getElem_extractLsb', BitVec.getLsbD_append]
  simp [show ¬ 23 + i < 23 by omega, hi]

@[simp] theorem f32Frac_pack32 (sign : BitVec 1) (exp : BitVec 8) (frac : BitVec 23) :
    f32Frac (pack32 sign exp frac) = frac := by
  ext i hi
  simp only [f32Frac, pack32, BitVec.getElem_extractLsb', BitVec.getLsbD_append]
  simp [hi]

@[simp] theorem pack32_fields (w : Word) : pack32 (f32Sign w) (f32Exp w) (f32Frac w) = w := by
  apply BitVec.eq_of_getLsbD_eq
  intro i hi
  simp only [f32Sign, f32Exp, f32Frac, pack32, BitVec.getLsbD_append, BitVec.getLsbD_extractLsb']
  split
  · simp [*]
  · split
    · simp [*, show 23 + (i - 23) = i by omega]
    · simp [show 31 + (i - 23 - 8) = i by omega, show i - 23 - 8 < 1 by omega]

end Sys2Proof.Machine
end

