-- ==== Sys2Proof/Laws/PerInstr.lean ====
section
/-!
SUPPORT. Facts about instructions as syntax, one lemma per constructor. Family RowHitsEncoding: the row of the decode map
that a well-formed instruction stands for hits the byte the encoder writes for it (spec/30_encoding.md R47).
-/

namespace Sys2Proof.Laws.RowHitsEncoding

/-- The encoded byte of a well-formed instruction lies in the instruction's own row. -/
def Statement (i : Instr) : Prop := i.wf = true → i.row.hits (encodeByte i) = true

theorem decodeFinE0_7 (sign : Sign) (exp : ExpIdx) (mant : Mant) : Statement (.decodeFinE0_7 sign exp mant) := by
  revert sign exp mant; unfold Statement; decide

theorem decodeFinE8_11 (sign : Sign) (exp : ExpIdx) (mant : Mant) : Statement (.decodeFinE8_11 sign exp mant) := by
  revert sign exp mant; unfold Statement; decide

theorem decodeFinE12_13 (sign : Sign) (exp : ExpIdx) (mant : Mant) : Statement (.decodeFinE12_13 sign exp mant) := by
  revert sign exp mant; unfold Statement; decide

theorem decodeFinE14 (sign : Sign) (mant : Mant) : Statement (.decodeFinE14 sign mant) := by
  revert sign mant; unfold Statement; decide

theorem decodeFinE15_M0_3 (sign : Sign) (mant : Mant) : Statement (.decodeFinE15_M0_3 sign mant) := by
  revert sign mant; unfold Statement; decide

theorem decodeFinE15_M4_5 (sign : Sign) (mant : Mant) : Statement (.decodeFinE15_M4_5 sign mant) := by
  revert sign mant; unfold Statement; decide

theorem decodeFinE15_M6 (sign : Sign) : Statement (.decodeFinE15_M6 sign) := by
  revert sign; unfold Statement; decide

theorem decodeNan (sign : Sign) : Statement (.decodeNan sign) := by
  revert sign; unfold Statement; decide

end Sys2Proof.Laws.RowHitsEncoding
end

