-- ==== Sys2Proof/Tests/Slice0.lean ====
section
/-!
SUPPORT. The model's own tests. Expected values come from the spec: the patterns of 30_encoding.md R47, the vectors of
95_test_vectors.md (transcribed or derived there by hand from the rules), and the rules' own examples. Then one witness for
each statement of Certificates/Slice0/Obligations.lean that has hypotheses.
-/

namespace Sys2Proof.Tests

open Sys2Proof.Machine

/-- The state after reset with one byte waiting. -/
def waiting (raw : Byte) : State := pushInput raw State.reset

/-- The output of a step, where it answers a next state. -/
def outputOf : Host.Outcome State Fault Refusal → Option Word
  | .next t => some t.f32O
  | .fault _ => none
  | .refused _ => none

/-! ## WellFormed refuses (ranges of R47) -/

theorem test_wf_refuses_exp_8_in_E0_7 : (Instr.decodeFinE0_7 0#1 8#4 0#3).wf = false := by decide
theorem test_wf_refuses_exp_7_in_E8_11 : (Instr.decodeFinE8_11 0#1 7#4 0#3).wf = false := by decide
theorem test_wf_refuses_exp_12_in_E8_11 : (Instr.decodeFinE8_11 0#1 12#4 0#3).wf = false := by decide
theorem test_wf_refuses_exp_11_in_E12_13 : (Instr.decodeFinE12_13 1#1 11#4 0#3).wf = false := by decide
theorem test_wf_refuses_exp_14_in_E12_13 : (Instr.decodeFinE12_13 1#1 14#4 0#3).wf = false := by decide
theorem test_wf_refuses_mant_4_in_M0_3 : (Instr.decodeFinE15_M0_3 0#1 4#3).wf = false := by decide
theorem test_wf_refuses_mant_3_in_M4_5 : (Instr.decodeFinE15_M4_5 0#1 3#3).wf = false := by decide
theorem test_wf_refuses_mant_6_in_M4_5 : (Instr.decodeFinE15_M4_5 0#1 6#3).wf = false := by decide

/-! ## Decoding: one word of each row, written bit by bit from its pattern (R47) -/

/-- `s0eeemmm`. -/
theorem test_decode_E0_7 : decode [0b10101010#8] = .ok (.decodeFinE0_7 1#1 5#4 2#3, []) := by rfl
/-- `s10eemmm`. -/
theorem test_decode_E8_11 : decode [0b01010101#8] = .ok (.decodeFinE8_11 0#1 10#4 5#3, []) := by rfl
/-- `s110emmm`. -/
theorem test_decode_E12_13 : decode [0b11101001#8] = .ok (.decodeFinE12_13 1#1 13#4 1#3, []) := by rfl
/-- `s1110mmm`. -/
theorem test_decode_E14 : decode [0b01110111#8] = .ok (.decodeFinE14 0#1 7#3, []) := by rfl
/-- `s11110mm`. -/
theorem test_decode_E15_M0_3 : decode [0b11111011#8] = .ok (.decodeFinE15_M0_3 1#1 3#3, []) := by rfl
/-- `s111110m`. -/
theorem test_decode_E15_M4_5 : decode [0b01111101#8] = .ok (.decodeFinE15_M4_5 0#1 5#3, []) := by rfl
/-- `s1111110`. -/
theorem test_decode_E15_M6 : decode [0b11111110#8] = .ok (.decodeFinE15_M6 1#1, []) := by rfl
/-- `s1111111`. -/
theorem test_decode_NAN : decode [0b01111111#8] = .ok (.decodeNan 0#1, []) := by rfl

/-- No byte is no input (R33), and a number of more than 8 bits is none either (92_eei_decisions.md D9). -/
theorem test_decode_refuses_no_input : decode [] = .error .noInput := by rfl
theorem test_decodeTableWord_refuses_wide_words :
    decodeTableWord 8 0x100 = none ∧ decodeTableWord 16 0x38 = none ∧ decodeTableWord 0 0 = none := by decide

/-- The numbers of bytes per row that R47 gives. -/
theorem test_row_counts :
    (decodeRows.map fun r => ((List.range 16).map fun hi =>
      (List.range 16).countP fun lo => r.hits (BitVec.ofNat 8 (16 * hi + lo))).sum) = [128, 64, 32, 16, 8, 4, 2, 2] := by
  decide

/-! ## The extractor (95_test_vectors.md section 2.1) -/

theorem test_extract_55 : (extractSign 0x55#8, extractExp 0x55#8, extractMant 0x55#8) = (0#1, 10#4, 5#3) := by decide
theorem test_extract_B8 : (extractSign 0xB8#8, extractExp 0xB8#8, extractMant 0xB8#8) = (1#1, 7#4, 0#3) := by decide

/-! ## The rebias table (R62; 95_test_vectors.md section 2.2) -/

/-- The table of R62 is the formula of R61. -/
theorem test_rom_is_the_formula : ∀ i : Fin 16, rebiasRom[i] = rebiasFormula i.val := by decide

/-- The parameters of 00_scope.md R6 agree with each other and with the types. -/
theorem test_parameters :
    rebiasRom.size = Config.nTable ∧ Config.mantShift = Config.expShift - 3 ∧ Config.signPos = 32 - 1 := by decide

/-- `REBIAS[7] = 127 << 23` (W4) and `REBIAS[0] = 120 << 23` (90_conflicts.md C3). -/
theorem test_rom_bias_point :
    romRead rebiasRom 7#4 = 127#32 <<< 23 ∧ romRead rebiasRom 0#4 = 120#32 <<< 23 := by decide

/-- The nets of 10_state.md R23 on the NaN input 0xFF: the lookup takes place (R64), and `is_nan` is 1. -/
theorem test_nets_of_FF :
    let s : State := { State.reset with rawI := 0xFF#8 }
    s.isNanNet = true ∧ s.expBitsNet = 0x43800000#32 ∧ s.signBitsNet = 0x80000000#32 ∧ s.mantBitsNet = 0x00700000#32 := by
  decide

/-! ## One step per row (95_test_vectors.md section 2.3 and the table of section 3) -/

/-- The zero byte is not zero (90_conflicts.md C1). -/
theorem test_step_00 : outputOf (step (waiting 0x00#8)) = some 0x3C000000#32 := by rfl
/-- Mantissa 7 at exponent field 0 is finite, and the sign is carried. -/
theorem test_step_87 : outputOf (step (waiting 0x87#8)) = some 0xBC700000#32 := by rfl
/-- 13.0. -/
theorem test_step_55 : outputOf (step (waiting 0x55#8)) = some 0x41500000#32 := by rfl
/-- -72.0. -/
theorem test_step_E9 : outputOf (step (waiting 0xE9#8)) = some 0xC2900000#32 := by rfl
/-- 240.0: mantissa 7 below exponent field 15 is ordinary. -/
theorem test_step_77 : outputOf (step (waiting 0x77#8)) = some 0x43700000#32 := by rfl
/-- 256.0: exponent field 15 is finite. -/
theorem test_step_78 : outputOf (step (waiting 0x78#8)) = some 0x43800000#32 := by rfl
/-- 416.0. -/
theorem test_step_7D : outputOf (step (waiting 0x7D#8)) = some 0x43D00000#32 := by rfl
/-- -448.0, the most negative finite output. -/
theorem test_step_FE : outputOf (step (waiting 0xFE#8)) = some 0xC3E00000#32 := by rfl
/-- NaN, sign 0. -/
theorem test_step_7F : outputOf (step (waiting 0x7F#8)) = some nanBits := by rfl
/-- NaN, sign 1: the same output (R75). -/
theorem test_step_FF : outputOf (step (waiting 0xFF#8)) = some nanBits := by rfl

/-- The next step after reset runs the word placed by withFetchWord (W7), and takes it. -/
theorem test_step_withFetchWord :
    step (State.reset.withFetchWord 8 0x38)
      = .next { State.reset with rawI := 0x38#8, f32O := 0x3F800000#32 } := by rfl

/-- With nothing placed, a step from reset holds the input and the output. -/
theorem test_step_reset_holds : step State.reset = .next State.reset := by rfl

/-! ## Witnesses: what meets the hypotheses of each statement -/

theorem witness_RebiasTableIsTheFormula : State.reset.RomIntact := rfl

theorem witness_RebiasEntriesAreExponentFieldsAlone : State.reset.RomIntact := rfl

theorem witness_ExponentFieldZeroHasNoSpecialPath : (waiting 0x00#8).RomIntact := rfl

theorem witness_RomIsNeverWritten :
    exec (.decodeFinE14 0#1 7#3) State.reset = .next (driveOutput 0x43700000#32 State.reset) ∧
    stepN 1 State.reset = .next State.reset := ⟨rfl, rfl⟩

/-- The bounds of every row's ranges. -/
theorem witness_DecodeAndEncodeAgree :
    (Instr.decodeFinE0_7 1#1 0#4 7#3).wf = true ∧ (Instr.decodeFinE0_7 0#1 7#4 0#3).wf = true ∧
    (Instr.decodeFinE8_11 1#1 8#4 7#3).wf = true ∧ (Instr.decodeFinE8_11 0#1 11#4 0#3).wf = true ∧
    (Instr.decodeFinE12_13 1#1 12#4 7#3).wf = true ∧ (Instr.decodeFinE12_13 0#1 13#4 0#3).wf = true ∧
    (Instr.decodeFinE14 1#1 7#3).wf = true ∧
    (Instr.decodeFinE15_M0_3 1#1 0#3).wf = true ∧ (Instr.decodeFinE15_M0_3 0#1 3#3).wf = true ∧
    (Instr.decodeFinE15_M4_5 1#1 4#3).wf = true ∧ (Instr.decodeFinE15_M4_5 0#1 5#3).wf = true ∧
    (Instr.decodeFinE15_M6 1#1).wf = true ∧ (Instr.decodeNan 1#1).wf = true := by decide

theorem witness_ComposingIsConcatenation : (waiting 0x7E#8).RomIntact := rfl

theorem witness_FiniteRowsWriteTheFloat32Fields : (waiting 0x7E#8).RomIntact := rfl

/-- A waiting byte, and a held one. -/
theorem witness_StepRunsTheDecodedInstruction :
    decode [0xFF#8] = .ok (.decodeNan 1#1, []) ∧ (waiting 0xFF#8).stimulus = [0xFF#8] ∧
    decode [0x00#8] = .ok (.decodeFinE0_7 0#1 0#4 0#3, []) ∧ State.reset.stimulus = [] ∧ State.reset.rawI = 0x00#8 :=
  ⟨rfl, rfl, rfl, rfl, rfl⟩

/-- A waiting byte, a held one, and the intact ROM of the second part. -/
theorem witness_StepComputesDecode :
    (waiting 0x7F#8).stimulus = [0x7F#8] ∧
    (State.reset.stimulus = [] ∧ State.reset.rawI = 0x00#8) ∧ State.reset.RomIntact := ⟨rfl, ⟨rfl, rfl⟩, rfl⟩

/-- The last finite byte before the NaN encodings. -/
theorem witness_FiniteBytesGiveFiniteOutputs :
    (waiting 0xFE#8).RomIntact ∧ FiniteByte (applyInput (waiting 0xFE#8)).rawI := ⟨rfl, rfl⟩

theorem witness_FiniteDecodeIsExact :
    (waiting 0x00#8).RomIntact ∧ FiniteByte (applyInput (waiting 0x00#8)).rawI := ⟨rfl, rfl⟩

/-- Two different states to which one finite byte is applied. -/
theorem witness_FiniteDecodeIsInjective :
    State.reset.RomIntact ∧ (waiting 0x00#8).RomIntact ∧
    FiniteByte (applyInput State.reset).rawI ∧ FiniteByte (applyInput (waiting 0x00#8)).rawI ∧
    step State.reset = .next State.reset ∧ step (waiting 0x00#8) = .next State.reset ∧
    State.reset ≠ waiting 0x00#8 := ⟨rfl, rfl, rfl, rfl, rfl, rfl, by decide⟩

theorem witness_SignBitIsCarriedOver :
    State.reset.RomIntact ∧ (0x7E#8).toNat ≤ 0x7E ∧
    step (pushInput 0x7E#8 State.reset)
      = .next { State.reset with rawI := 0x7E#8, f32O := 0x43E00000#32 } := ⟨rfl, by decide, rfl⟩

theorem witness_DecodeIsStrictlyIncreasing :
    State.reset.RomIntact ∧ (waiting 0xFF#8).RomIntact ∧
    (0x7D#8).toNat < (0x7E#8).toNat ∧ (0x7E#8).toNat ≤ 0x7E := ⟨rfl, rfl, by decide, by decide⟩

theorem witness_OutputIgnoresEarlierInputs :
    State.reset.rebias = ({ State.reset with rawI := 0x38#8, f32O := 0#32 } : State).rebias := rfl

theorem witness_EachByteOfAStimulusIsDecoded :
    (pushInput 0x38#8 (pushInput 0xFF#8 (waiting 0xB8#8))).RomIntact ∧
    (pushInput 0x38#8 (pushInput 0xFF#8 (waiting 0xB8#8))).stimulus = [0x38#8] ++ 0xFF#8 :: [0xB8#8] := ⟨rfl, rfl⟩

theorem witness_HeldInputKeepsTheOutput : State.reset.Inv ∧ State.reset.stimulus = [] := ⟨⟨rfl, rfl⟩, rfl⟩

theorem witness_OnlySettledOutputsAreRead :
    (waiting 0x38#8).RomIntact ∧ (waiting 0x38#8).stimulus = [0x38#8] := ⟨rfl, rfl⟩

/-- A state that is not settled, from which a step settles. -/
theorem witness_StepKeepsTheInvariant :
    ({ waiting 0x38#8 with f32O := 0#32 } : State).RomIntact ∧
    step { waiting 0x38#8 with f32O := 0#32 }
      = .next { State.reset with rawI := 0x38#8, f32O := 0x3F800000#32 } := ⟨rfl, rfl⟩

theorem witness_InvariantHoldsAlongEveryRun : State.reset.Inv := ⟨rfl, rfl⟩

end Sys2Proof.Tests
end

