-- ==== Sys2Proof/Proofs/Encoding.lean ====
section
/-!
PROOFS. The statements of spec/30_encoding.md about the instructions. R45: the row that selects a byte bounds its fields,
and every instruction drives the output. R46: over the intact ROM the finite path puts the three fields side by side.
-/

namespace Sys2Proof

/-! ## A byte's row bounds the fields it leaves free (R47) -/

theorem extractExp_of_rowFinE0_7 {raw : Byte} (h : rowFinE0_7.hits raw = true) : (extractExp raw).toNat ≤ 7 := by
  revert raw; decide

theorem extractExp_of_rowFinE8_11 {raw : Byte} (h : rowFinE8_11.hits raw = true) :
    8 ≤ (extractExp raw).toNat ∧ (extractExp raw).toNat ≤ 11 := by
  revert raw; decide

theorem extractExp_of_rowFinE12_13 {raw : Byte} (h : rowFinE12_13.hits raw = true) :
    12 ≤ (extractExp raw).toNat ∧ (extractExp raw).toNat ≤ 13 := by
  revert raw; decide

theorem extractMant_of_rowFinE15_M0_3 {raw : Byte} (h : rowFinE15_M0_3.hits raw = true) :
    (extractMant raw).toNat ≤ 3 := by
  revert raw; decide

theorem extractMant_of_rowFinE15_M4_5 {raw : Byte} (h : rowFinE15_M4_5.hits raw = true) :
    4 ≤ (extractMant raw).toNat ∧ (extractMant raw).toNat ≤ 5 := by
  revert raw; decide

/-- Each arm of the decode map is reached only by bytes its row hits, and the row bounds the operands. -/
theorem decodeByte_wf (raw : Byte) : (decodeByte raw).wf = true := by
  unfold decodeByte
  split_ifs with hE0 hE8 hE12 hE14 hM0 hM4 hM6
  · simpa [Instr.wf] using extractExp_of_rowFinE0_7 hE0
  · simpa [Instr.wf] using extractExp_of_rowFinE8_11 hE8
  · simpa [Instr.wf] using extractExp_of_rowFinE12_13 hE12
  · rfl
  · simpa [Instr.wf] using extractMant_of_rowFinE15_M0_3 hM0
  · simpa [Instr.wf] using extractMant_of_rowFinE15_M4_5 hM4
  · rfl
  · rfl

end Sys2Proof

namespace Sys2Proof.Machine

/-! ## The path of the multiplexer each instruction takes (R74) -/

section
variable (sign : Sign) (exp : ExpIdx) (mant : Mant) (s : State)

@[simp] theorem exec_decodeFinE0_7 : exec (.decodeFinE0_7 sign exp mant) s = finitePath sign exp mant s := rfl
@[simp] theorem exec_decodeFinE8_11 : exec (.decodeFinE8_11 sign exp mant) s = finitePath sign exp mant s := rfl
@[simp] theorem exec_decodeFinE12_13 : exec (.decodeFinE12_13 sign exp mant) s = finitePath sign exp mant s := rfl
@[simp] theorem exec_decodeFinE14 : exec (.decodeFinE14 sign mant) s = finitePath sign 14#4 mant s := rfl
@[simp] theorem exec_decodeFinE15_M0_3 : exec (.decodeFinE15_M0_3 sign mant) s = finitePath sign 15#4 mant s := rfl
@[simp] theorem exec_decodeFinE15_M4_5 : exec (.decodeFinE15_M4_5 sign mant) s = finitePath sign 15#4 mant s := rfl
@[simp] theorem exec_decodeFinE15_M6 : exec (.decodeFinE15_M6 sign) s = finitePath sign 15#4 6#3 s := rfl
@[simp] theorem exec_decodeNan : exec (.decodeNan sign) s = nanPath s := rfl

end

theorem finitePath_drives (sign : Sign) (exp : ExpIdx) (mant : Mant) (s : State) :
    ∃ w : Word, finitePath sign exp mant s = .next (driveOutput w s) :=
  ⟨_, finitePath_eq_next.mpr rfl⟩

/-- All an instruction can do: it drives the output with some word, and it always answers (R85). -/
theorem exec_drives (i : Instr) (s : State) : ∃ w : Word, exec i s = .next (driveOutput w s) := by
  cases i with
  | decodeNan sign => exact ⟨nanBits, (exec_decodeNan sign s).trans (nanPath_eq_next.mpr rfl)⟩
  | _ => simp only [exec_decodeFinE0_7, exec_decodeFinE8_11, exec_decodeFinE12_13, exec_decodeFinE14,
      exec_decodeFinE15_M0_3, exec_decodeFinE15_M4_5, exec_decodeFinE15_M6, finitePath_drives]

/-! ## The finite path over the intact ROM (R46, R72) -/

theorem pack32_or (a a' : BitVec 1) (b b' : BitVec 8) (c c' : BitVec 23) :
    pack32 a b c ||| pack32 a' b' c' = pack32 (a ||| a') (b ||| b') (c ||| c') :=
  calc (a ++ b ++ c) ||| (a' ++ b' ++ c')
    _ = ((a ++ b) ||| (a' ++ b')) ++ (c ||| c') := BitVec.or_append
    _ = (a ||| a') ++ (b ||| b') ++ (c ||| c') := by rw [BitVec.or_append]

/-- The three placed fields share no bit, so over the ROM's constants composing them is concatenation. -/
theorem compose_rebiasRom (sign : Sign) (exp : ExpIdx) (mant : Mant) :
    compose rebiasRom sign exp mant = pack32 sign (exp.setWidth 8 + 120#8) (mant ++ 0#20) := by
  simp [compose, placeSign_eq, romRead_rebiasRom, placeMant_eq, pack32_or]

theorem finitePath_of_romIntact {s : State} (hrom : s.RomIntact) (sign : Sign) (exp : ExpIdx) (mant : Mant) :
    finitePath sign exp mant s
      = .next { s with f32O := pack32 sign (exp.setWidth 8 + 120#8) (mant ++ 0#20) } := by
  rw [← compose_rebiasRom, ← hrom]
  exact finitePath_eq_next.mpr rfl

/-! ## The statements -/

/-- Settles O8: the decoder's answer is `decodeByte`, which is well formed, and every instruction drives the output. -/
theorem everyByteIsAValidInput : Obligations.EveryByteIsAValidInput := by
  intro raw rest
  refine ⟨decodeByte raw, decode_cons raw rest, decodeByte_wf raw, fun s => ?_⟩
  obtain ⟨w, hw⟩ := exec_drives (decodeByte raw) s
  exact ⟨driveOutput w s, hw⟩

/-- Settles O14: every finite row is the finite path, with its exponent field where the row fixes it to 14 or 15. -/
theorem finiteRowsWriteTheFloat32Fields : Obligations.FiniteRowsWriteTheFloat32Fields := by
  intro s sign exp mant hrom
  have path := finitePath_of_romIntact hrom sign
  have field14 : (14#4).setWidth 8 + 120#8 = 134#8 := rfl
  have field15 : (15#4).setWidth 8 + 120#8 = 135#8 := rfl
  refine ⟨?_, ?_, ?_, ?_, ?_, ?_, ?_⟩
  · rw [exec_decodeFinE0_7, path]
  · rw [exec_decodeFinE8_11, path]
  · rw [exec_decodeFinE12_13, path]
  · rw [exec_decodeFinE14, path, field14]
  · rw [exec_decodeFinE15_M0_3, path, field15]
  · rw [exec_decodeFinE15_M4_5, path, field15]
  · rw [exec_decodeFinE15_M6, path, field15]

end Sys2Proof.Machine
end

