-- ==== Sys2Proof/Proofs/Extractor.lean ====
section
/-!
PROOFS. The statements of spec/41_extractor.md. R51, R52, R53: shifting a word and masking it with `w` ones is taking a
slice of `w` bits, so each field of the input is the bit slice its rule names.
-/

namespace Sys2Proof

/-- The mask of `w` ones keeps the shifted word's low `w` bits (R52: the sign bit never leaks into the exponent field). -/
theorem toNat_shift_and_mask {n w : Nat} (x : BitVec n) (start : Nat) (hw : w ≤ n) :
    ((x >>> start) &&& BitVec.ofNat n (2 ^ w - 1)).toNat = (x.extractLsb' start w).toNat := by
  have mask_fits : 2 ^ w - 1 < 2 ^ n :=
    (Nat.sub_one_lt (Nat.two_pow_pos w).ne').trans_le (Nat.pow_le_pow_right Nat.two_pos hw)
  rw [BitVec.toNat_and, BitVec.toNat_ofNat, Nat.mod_eq_of_lt mask_fits, Nat.and_two_pow_sub_one_eq_mod,
    BitVec.toNat_ushiftRight, BitVec.extractLsb'_toNat]

/-- Narrowing the masked word to the slice's width loses nothing. -/
theorem setWidth_shift_and_mask {n w : Nat} (x : BitVec n) (start : Nat) (hw : w ≤ n) :
    ((x >>> start) &&& BitVec.ofNat n (2 ^ w - 1)).setWidth w = x.extractLsb' start w := by
  apply BitVec.eq_of_toNat_eq
  rw [BitVec.toNat_setWidth, toNat_shift_and_mask x start hw, Nat.mod_eq_of_lt (BitVec.isLt _)]

/-! ## Each field is the slice its rule names -/

theorem extractSign_eq_slice (raw : Byte) : extractSign raw = raw.extractLsb' 7 1 :=
  setWidth_shift_and_mask raw 7 (by decide)

theorem extractExp_eq_slice (raw : Byte) : extractExp raw = raw.extractLsb' 3 4 :=
  setWidth_shift_and_mask raw 3 (by decide)

theorem extractMant_eq_slice (raw : Byte) : extractMant raw = raw.extractLsb' 0 3 :=
  setWidth_shift_and_mask raw 0 (by decide)

theorem toNat_extractSign (raw : Byte) : (extractSign raw).toNat = ((raw >>> 7) &&& 0x1#8).toNat := by
  rw [extractSign_eq_slice]
  exact (toNat_shift_and_mask raw 7 (by decide)).symm

theorem toNat_extractExp (raw : Byte) : (extractExp raw).toNat = ((raw >>> 3) &&& 0xF#8).toNat := by
  rw [extractExp_eq_slice]
  exact (toNat_shift_and_mask raw 3 (by decide)).symm

theorem toNat_extractMant (raw : Byte) : (extractMant raw).toNat = (raw &&& 0x7#8).toNat := by
  rw [extractMant_eq_slice]
  exact (toNat_shift_and_mask raw 0 (by decide)).symm

end Sys2Proof

namespace Sys2Proof.Machine

/-! ## The corner cases of the rules -/

/-- R51: the NaN path does not read the sign. -/
theorem exec_decodeNan_sign_irrelevant (a b : Sign) (s : State) : exec (.decodeNan a) s = exec (.decodeNan b) s :=
  (exec_decodeNan a s).trans (exec_decodeNan b s).symm

/-- R53: mantissa 7 is special with exponent field 0xF alone. -/
theorem isNan_mant_seven_iff (exp : ExpIdx) : isNan exp 0x7#3 = true ↔ exp = 0xF#4 :=
  (isNan_iff exp 0x7#3).trans (and_iff_left rfl)

/-! ## The statement -/

/-- Settles O5: the nets are the extractor's fields of `raw_i`, and shift-and-mask is slicing; the rules' examples are
evaluated. -/
theorem extractorSelectsTheFields : Obligations.ExtractorSelectsTheFields := by
  intro s
  have sign := And.intro (extractSign_eq_slice s.rawI) (toNat_extractSign s.rawI)
  have exp := And.intro (extractExp_eq_slice s.rawI) (toNat_extractExp s.rawI)
  have mant := And.intro (extractMant_eq_slice s.rawI) (toNat_extractMant s.rawI)
  exact ⟨sign, exp, mant, fun a b => exec_decodeNan_sign_irrelevant a b s, isNan_mant_seven_iff,
    by decide, by decide, by decide, by decide⟩

end Sys2Proof.Machine
end

