-- ==== Sys2Proof/Proofs/RebiasTable.lean ====
section
/-!
PROOFS. The statements of spec/42_rebias_table.md. R61: the integer under the cast is the natural number `i + 120`, so the
construction formula is that number shifted into place. R65: the read port answers the formula at every index, and
exponent field 0 is composed by the finite path like every other field.
-/

namespace Sys2Proof.Machine

/-! ## The construction formula (R61) -/

/-- The integer `i - 7 + 127` is never negative, so the cast to an unsigned word meets no borrow (R63). -/
theorem rebiasFormula_eq_shifted_nat (i : Nat) : rebiasFormula i = BitVec.ofNat 32 (i + 120) <<< 23 := by
  have exponent_field : (i : Int) - Config.biasIn + Config.biasOut = ((i + 120 : Nat) : Int) := by
    simp only [Config.biasIn, Config.biasOut]; omega
  rw [rebiasFormula, exponent_field, BitVec.ofInt_natCast]

/-- Each of the sixteen constants of R62 is what R61 evaluates to. -/
theorem rebiasRom_getElem (i : Fin 16) : rebiasRom[i] = rebiasFormula i.val := by
  revert i; decide

theorem getElem_of_romIntact {s : State} (hrom : s.RomIntact) (i : Fin 16) : s.rebias[i] = rebiasFormula i.val := by
  rw [hrom, rebiasRom_getElem]

/-- The read port selects the entry of its index, and every 4-bit index is in range (R64). -/
theorem romRead_of_romIntact {s : State} (hrom : s.RomIntact) (exp : ExpIdx) :
    romRead s.rebias exp = rebiasFormula exp.toNat :=
  getElem_of_romIntact hrom exp.toFin

/-! ## The statements -/

/-- Settles O1: an intact entry is `rebiasFormula`, which is the cast integer by definition and the shifted natural number
by `rebiasFormula_eq_shifted_nat`. -/
theorem rebiasTableIsTheFormula : Obligations.RebiasTableIsTheFormula := by
  intro s hrom i
  have entry := getElem_of_romIntact hrom i
  exact ⟨entry, entry.trans (rebiasFormula_eq_shifted_nat i.val)⟩

/-- Settles O3: the lookup is the formula at every index, and the row's meaning is the finite path, which at exponent
field 0 puts `0 + 120` in the exponent field. -/
theorem exponentFieldZeroHasNoSpecialPath : Obligations.ExponentFieldZeroHasNoSpecialPath := by
  intro s hrom
  refine ⟨romRead_of_romIntact hrom, fun sign mant => ?_⟩
  have field0 : (0#4).setWidth 8 + 120#8 = 120#8 := rfl
  rw [exec_decodeFinE0_7, finitePath_of_romIntact hrom, field0]

end Sys2Proof.Machine
end

