-- ==== Sys2Proof/Proofs/ComposeMux.lean ====
section
/-!
PROOFS. The statements of spec/43_compose_mux.md. R71: the placed mantissa is the float32 word that is the mantissa at the
top of its fraction and zero elsewhere, so slicing it and masking it are done field by field. R75: a byte of the NaN row
takes the NaN path, which does not read the state or the sign.
-/

namespace Sys2Proof.Machine

/-! ## The placed mantissa (R71) -/

theorem pack32_and (a a' : BitVec 1) (b b' : BitVec 8) (c c' : BitVec 23) :
    pack32 a b c &&& pack32 a' b' c' = pack32 (a &&& a') (b &&& b') (c &&& c') :=
  calc (a ++ b ++ c) &&& (a' ++ b' ++ c')
    _ = ((a ++ b) &&& (a' ++ b')) ++ (c &&& c') := BitVec.and_append
    _ = (a &&& a') ++ (b &&& b') ++ (c &&& c') := by rw [BitVec.and_append]

/-- A slice inside bits 22:0 of a word is a slice of its fraction. -/
theorem extractLsb'_pack32_of_le (a : BitVec 1) (b : BitVec 8) (c : BitVec 23) {start len : Nat} (h : start + len ≤ 23) :
    (pack32 a b c).extractLsb' start len = c.extractLsb' start len :=
  BitVec.extractLsb'_append_eq_of_add_le h

theorem placeMant_slice (mant : Mant) : (placeMant mant).extractLsb' 20 3 = mant := by
  rw [placeMant_eq, extractLsb'_pack32_of_le _ _ _ (by decide), BitVec.extractLsb'_append_eq_left]

/-- The mask has zeros in bits 22:20 alone: its sign and exponent field meet zero fields of the placed mantissa, and in the
fraction its three zeros meet the mantissa and its ones meet the twenty zeros. -/
theorem placeMant_and_mask (mant : Mant) : placeMant mant &&& 0xFF8FFFFF#32 = 0#32 := by
  have mask_fields : 0xFF8FFFFF#32 = pack32 1#1 0xFF#8 (0#3 ++ BitVec.allOnes 20) := rfl
  have fraction : (mant ++ 0#20) &&& (0#3 ++ BitVec.allOnes 20) = 0#23 := by
    rw [BitVec.and_append, BitVec.and_zero, BitVec.zero_and, BitVec.zero_append_zero]
  rw [placeMant_eq, mask_fields, pack32_and, fraction]
  rfl

/-! ## A step on a byte of the NaN row (R73) -/

theorem step_pushInput (raw : Byte) (s : State) :
    step (pushInput raw s) = exec (decodeByte raw) { s with rawI := raw } := by
  rw [step, applyInput_pushInput]

/-- Neither the sign in the byte nor the state it is applied in reaches the output. -/
theorem step_pushInput_of_decodeNan {raw : Byte} {sign : Sign} (h : decodeByte raw = .decodeNan sign) (s : State) :
    step (pushInput raw s) = .next (driveOutput nanBits { s with rawI := raw }) := by
  rw [step_pushInput, h, exec_decodeNan]
  exact nanPath_eq_next.mpr rfl

/-! ## The statements -/

/-- Settles O12: the two placed signs are evaluated, the shift is the definition of `placeMant`, and its slice and its mask
are read off the fields of the placed word. -/
theorem signAndMantissaArePlaced : Obligations.SignAndMantissaArePlaced :=
  ⟨rfl, rfl, fun mant => ⟨rfl, placeMant_slice mant, placeMant_and_mask mant⟩⟩

/-- Settles O17: 0x7F and 0xFF are the NaN row's bytes with sign 0 and sign 1, and each step takes the NaN path. -/
theorem nanOutputIgnoresTheSign : Obligations.NanOutputIgnoresTheSign := by
  intro s u
  have positive : decodeByte 0x7F#8 = .decodeNan 0#1 := rfl
  have negative : decodeByte 0xFF#8 = .decodeNan 1#1 := rfl
  exact ⟨_, _, step_pushInput_of_decodeNan positive s, step_pushInput_of_decodeNan negative u,
    driveOutput_f32O .., driveOutput_f32O ..⟩

end Sys2Proof.Machine
end

