-- ==== Sys2Proof/Proofs/DecodeMap.lean ====
section
/-!
PROOFS. The statements of spec/30_encoding.md about the decode map and its inverse, the encoder (R40, R47), and of
41_extractor.md about the fields (R54). A byte is its three fields side by side; the row that hits it names its
instruction, and fixes the fields that are no operands, so the encoder puts the same byte together again.
-/

namespace Sys2Proof

/-! ## A byte is its fields side by side (R54) -/

@[simp] theorem packByte_fields (raw : Byte) : packByte (extractSign raw) (extractExp raw) (extractMant raw) = raw := by
  revert raw; decide

theorem packByte_eq_or (sign : Sign) (exp : ExpIdx) (mant : Mant) :
    packByte sign exp mant = (sign.setWidth 8 <<< 7) ||| (exp.setWidth 8 <<< 3) ||| mant.setWidth 8 := by
  revert sign exp mant; decide

/-- The extraction, as one map. -/
def byteFields (raw : Byte) : Sign × ExpIdx × Mant := (extractSign raw, extractExp raw, extractMant raw)

/-- The encoder's packing is the inverse of the extraction, on both sides. -/
theorem byteFields_bijective : Function.Bijective byteFields := by
  rw [Function.bijective_iff_has_inverse]
  refine ⟨fun fields => packByte fields.1 fields.2.1 fields.2.2, packByte_fields, fun fields => ?_⟩
  simp [byteFields]

/-! ## What a row fixes in the bytes it hits (R47) -/

theorem DecodeRow.hits_iff (r : DecodeRow) (raw : Byte) : r.hits raw = true ↔ raw &&& r.mask = r.pattern :=
  beq_iff_eq

theorem extractExp_of_rowFinE14 {raw : Byte} (h : rowFinE14.hits raw = true) : extractExp raw = 14#4 := by
  revert raw; decide

theorem extractExp_of_rowFinE15_M0_3 {raw : Byte} (h : rowFinE15_M0_3.hits raw = true) : extractExp raw = 15#4 := by
  revert raw; decide

theorem extractExp_of_rowFinE15_M4_5 {raw : Byte} (h : rowFinE15_M4_5.hits raw = true) : extractExp raw = 15#4 := by
  revert raw; decide

theorem fields_of_rowFinE15_M6 {raw : Byte} (h : rowFinE15_M6.hits raw = true) :
    extractExp raw = 15#4 ∧ extractMant raw = 6#3 := by
  revert raw; decide

theorem fields_of_rowNan {raw : Byte} (h : rowNan.hits raw = true) : extractExp raw = 15#4 ∧ extractMant raw = 7#3 := by
  revert raw; decide

/-! ## The row that hits a byte names its instruction (R47) -/

/-- What the decode map can answer: the instruction of a row that hits the byte, with the byte's own fields. -/
theorem decodeByte_cases {raw : Byte} {P : Instr → Prop}
    (finE0_7 : rowFinE0_7.hits raw → P (.decodeFinE0_7 (extractSign raw) (extractExp raw) (extractMant raw)))
    (finE8_11 : rowFinE8_11.hits raw → P (.decodeFinE8_11 (extractSign raw) (extractExp raw) (extractMant raw)))
    (finE12_13 : rowFinE12_13.hits raw → P (.decodeFinE12_13 (extractSign raw) (extractExp raw) (extractMant raw)))
    (finE14 : rowFinE14.hits raw → P (.decodeFinE14 (extractSign raw) (extractMant raw)))
    (finE15_M0_3 : rowFinE15_M0_3.hits raw → P (.decodeFinE15_M0_3 (extractSign raw) (extractMant raw)))
    (finE15_M4_5 : rowFinE15_M4_5.hits raw → P (.decodeFinE15_M4_5 (extractSign raw) (extractMant raw)))
    (finE15_M6 : rowFinE15_M6.hits raw → P (.decodeFinE15_M6 (extractSign raw)))
    (nan : rowNan.hits raw → P (.decodeNan (extractSign raw))) : P (decodeByte raw) := by
  unfold decodeByte
  split_ifs with hE0 hE8 hE12 hE14 hM0 hM4 hM6
  · exact finE0_7 hE0
  · exact finE8_11 hE8
  · exact finE12_13 hE12
  · exact finE14 hE14
  · exact finE15_M0_3 hM0
  · exact finE15_M4_5 hM4
  · exact finE15_M6 hM6
  · exact nan (decode_nan_hit raw (by simp [decodeRows, hE0, hE8, hE12, hE14, hM0, hM4, hM6]))

theorem row_hits_of_decodeByte {raw : Byte} {i : Instr} (h : decodeByte raw = i) : i.row.hits raw = true :=
  h ▸ decodeByte_row_hits raw

section
variable (raw : Byte)

theorem rowFinE0_7_hits_iff : rowFinE0_7.hits raw = true ↔
    decodeByte raw = .decodeFinE0_7 (extractSign raw) (extractExp raw) (extractMant raw) :=
  ⟨by revert raw; decide, row_hits_of_decodeByte⟩

theorem rowFinE8_11_hits_iff : rowFinE8_11.hits raw = true ↔
    decodeByte raw = .decodeFinE8_11 (extractSign raw) (extractExp raw) (extractMant raw) :=
  ⟨by revert raw; decide, row_hits_of_decodeByte⟩

theorem rowFinE12_13_hits_iff : rowFinE12_13.hits raw = true ↔
    decodeByte raw = .decodeFinE12_13 (extractSign raw) (extractExp raw) (extractMant raw) :=
  ⟨by revert raw; decide, row_hits_of_decodeByte⟩

theorem rowFinE14_hits_iff : rowFinE14.hits raw = true ↔
    decodeByte raw = .decodeFinE14 (extractSign raw) (extractMant raw) :=
  ⟨by revert raw; decide, row_hits_of_decodeByte⟩

theorem rowFinE15_M0_3_hits_iff : rowFinE15_M0_3.hits raw = true ↔
    decodeByte raw = .decodeFinE15_M0_3 (extractSign raw) (extractMant raw) :=
  ⟨by revert raw; decide, row_hits_of_decodeByte⟩

theorem rowFinE15_M4_5_hits_iff : rowFinE15_M4_5.hits raw = true ↔
    decodeByte raw = .decodeFinE15_M4_5 (extractSign raw) (extractMant raw) :=
  ⟨by revert raw; decide, row_hits_of_decodeByte⟩

theorem rowFinE15_M6_hits_iff : rowFinE15_M6.hits raw = true ↔ decodeByte raw = .decodeFinE15_M6 (extractSign raw) :=
  ⟨by revert raw; decide, row_hits_of_decodeByte⟩

theorem rowNan_hits_iff : rowNan.hits raw = true ↔ decodeByte raw = .decodeNan (extractSign raw) :=
  ⟨by revert raw; decide, row_hits_of_decodeByte⟩

end

/-! ## Decoding and encoding are inverse to each other -/

/-- The encoded byte lies in the instruction's row and holds its operands. -/
theorem decodeByte_encodeByte {i : Instr} (hwf : i.wf = true) : decodeByte (encodeByte i) = i := by
  cases i with
  | decodeFinE0_7 sign exp mant =>
    simpa [encodeByte] using (rowFinE0_7_hits_iff _).mp (Laws.RowHitsEncoding.decodeFinE0_7 sign exp mant hwf)
  | decodeFinE8_11 sign exp mant =>
    simpa [encodeByte] using (rowFinE8_11_hits_iff _).mp (Laws.RowHitsEncoding.decodeFinE8_11 sign exp mant hwf)
  | decodeFinE12_13 sign exp mant =>
    simpa [encodeByte] using (rowFinE12_13_hits_iff _).mp (Laws.RowHitsEncoding.decodeFinE12_13 sign exp mant hwf)
  | decodeFinE14 sign mant =>
    simpa [encodeByte] using (rowFinE14_hits_iff _).mp (Laws.RowHitsEncoding.decodeFinE14 sign mant hwf)
  | decodeFinE15_M0_3 sign mant =>
    simpa [encodeByte] using (rowFinE15_M0_3_hits_iff _).mp (Laws.RowHitsEncoding.decodeFinE15_M0_3 sign mant hwf)
  | decodeFinE15_M4_5 sign mant =>
    simpa [encodeByte] using (rowFinE15_M4_5_hits_iff _).mp (Laws.RowHitsEncoding.decodeFinE15_M4_5 sign mant hwf)
  | decodeFinE15_M6 sign =>
    simpa [encodeByte] using (rowFinE15_M6_hits_iff _).mp (Laws.RowHitsEncoding.decodeFinE15_M6 sign hwf)
  | decodeNan sign =>
    simpa [encodeByte] using (rowNan_hits_iff _).mp (Laws.RowHitsEncoding.decodeNan sign hwf)

/-- The fields that are no operands are those the row fixes, so packing the instruction packs the byte's own fields. -/
theorem encodeByte_decodeByte (raw : Byte) : encodeByte (decodeByte raw) = raw := by
  have packed := packByte_fields raw
  apply decodeByte_cases (raw := raw) (P := fun i => encodeByte i = raw)
  case finE0_7 | finE8_11 | finE12_13 => exact fun _ => packed
  case finE14 => intro hit; rwa [extractExp_of_rowFinE14 hit] at packed
  case finE15_M0_3 => intro hit; rwa [extractExp_of_rowFinE15_M0_3 hit] at packed
  case finE15_M4_5 => intro hit; rwa [extractExp_of_rowFinE15_M4_5 hit] at packed
  case finE15_M6 =>
    intro hit
    obtain ⟨hexp, hmant⟩ := fields_of_rowFinE15_M6 hit
    rwa [hexp, hmant] at packed
  case nan =>
    intro hit
    obtain ⟨hexp, hmant⟩ := fields_of_rowNan hit
    rwa [hexp, hmant] at packed

/-! ## The statements -/

/-- Settles O11: the encoded byte lies in the instruction's own row, and the byte's row fixes what the instruction leaves
out. -/
theorem decodeAndEncodeAgree : Obligations.DecodeAndEncodeAgree := by
  refine ⟨fun i rest hwf => ?_, fun raw rest => ⟨decodeByte raw, decode_cons raw rest, decodeByte_wf raw, ?_⟩⟩
  · rw [encode, List.singleton_append, decode_cons, decodeByte_encodeByte hwf]
  · rw [encode, encodeByte_decodeByte]

/-- Settles O6: packing is shifting and OR-ing the fields, and it is the inverse of the extraction. -/
theorem extractorIsABijection : Obligations.ExtractorIsABijection :=
  ⟨fun raw => by rw [← packByte_eq_or, packByte_fields], byteFields_bijective⟩

/-- Settles O9: a row's mask and pattern are its hit test, and the row that hits a byte names its instruction. -/
theorem decodeMapSelectsTheRow : Obligations.DecodeMapSelectsTheRow := by
  intro raw
  have selects (r : DecodeRow) : raw &&& r.mask = r.pattern ↔ r.hits raw = true := (r.hits_iff raw).symm
  exact ⟨(selects rowFinE0_7).trans (rowFinE0_7_hits_iff raw), (selects rowFinE8_11).trans (rowFinE8_11_hits_iff raw),
    (selects rowFinE12_13).trans (rowFinE12_13_hits_iff raw), (selects rowFinE14).trans (rowFinE14_hits_iff raw),
    (selects rowFinE15_M0_3).trans (rowFinE15_M0_3_hits_iff raw),
    (selects rowFinE15_M4_5).trans (rowFinE15_M4_5_hits_iff raw),
    (selects rowFinE15_M6).trans (rowFinE15_M6_hits_iff raw), (selects rowNan).trans (rowNan_hits_iff raw)⟩

/-- Settles O10: the eight words are evaluated. -/
theorem sampleWordsDecode : Obligations.SampleWordsDecode := by
  unfold Obligations.SampleWordsDecode
  decide

end Sys2Proof
end

