-- ==== Sys2Proof/Proofs/Step.lean ====
section
/-!
PROOFS. The statements about one step (spec/43_compose_mux.md R74; 70_reset_and_hazards.md R101). Whatever row a byte
decodes to, its instruction drives the output with DECODE of the byte, so a step always answers, and it answers
`nextState`.
-/

namespace Sys2Proof.Machine

/-! ## The decoded instruction computes the pseudocode of DECODE (R74) -/

theorem exec_decodeByte_of_nan {raw : Byte} (h : isNanByte raw = true) (s : State) :
    exec (decodeByte raw) s = nanPath s := by
  have hit : rowNan.hits raw = true := by revert raw; decide
  rw [(rowNan_hits_iff raw).mp hit, exec_decodeNan]

/-- Where a row fixes a field, its instruction composes the field the byte has. -/
theorem exec_decodeByte_of_finite {raw : Byte} (h : isNanByte raw = false) (s : State) :
    exec (decodeByte raw) s = finitePath (extractSign raw) (extractExp raw) (extractMant raw) s := by
  apply decodeByte_cases (P := fun i => exec i s = finitePath _ _ _ s)
  case finE0_7 => exact fun _ => exec_decodeFinE0_7 ..
  case finE8_11 => exact fun _ => exec_decodeFinE8_11 ..
  case finE12_13 => exact fun _ => exec_decodeFinE12_13 ..
  case finE14 => intro hit; rw [exec_decodeFinE14, extractExp_of_rowFinE14 hit]
  case finE15_M0_3 => intro hit; rw [exec_decodeFinE15_M0_3, extractExp_of_rowFinE15_M0_3 hit]
  case finE15_M4_5 => intro hit; rw [exec_decodeFinE15_M4_5, extractExp_of_rowFinE15_M4_5 hit]
  case finE15_M6 =>
    intro hit
    obtain ⟨hexp, hmant⟩ := fields_of_rowFinE15_M6 hit
    rw [exec_decodeFinE15_M6, hexp, hmant]
  case nan =>
    intro hit
    have nan : isNanByte raw = true := (isNan_iff _ _).mpr (fields_of_rowNan hit)
    exact absurd nan (Bool.eq_false_iff.mp h)

theorem exec_decodeByte (raw : Byte) (s : State) :
    exec (decodeByte raw) s = .next (driveOutput (decodeOp s.rebias raw) s) := by
  cases h : isNanByte raw with
  | true => rw [exec_decodeByte_of_nan h, decodeOp_of_nan h, nanPath_eq_next]
  | false => rw [exec_decodeByte_of_finite h, decodeOp_of_finite h, finitePath_eq_next]

/-! ## The state a step answers -/

/-- The state in which the environment has applied the next input and the output has settled. -/
def nextState (s : State) : State := driveOutput (decodeOp s.rebias (applyInput s).rawI) (applyInput s)

theorem step_eq_nextState (s : State) : step s = .next (nextState s) := by
  rw [step, exec_decodeByte, applyInput_rebias, nextState]

theorem step_eq_next_iff {s t : State} : step s = .next t ↔ t = nextState s := by
  rw [step_eq_nextState, Host.Outcome.next.injEq, eq_comm]

@[simp] theorem nextState_rebias (s : State) : (nextState s).rebias = s.rebias := by simp [nextState]
@[simp] theorem nextState_stimulus (s : State) : (nextState s).stimulus = s.stimulus.tail := by simp [nextState]
theorem nextState_rawI (s : State) : (nextState s).rawI = (applyInput s).rawI := rfl
theorem nextState_f32O (s : State) : (nextState s).f32O = decodeOp s.rebias (nextState s).rawI := rfl

theorem nextState_of_waiting {s : State} {raw : Byte} {rest : List Byte} (h : s.stimulus = raw :: rest) :
    nextState s = { s with rawI := raw, stimulus := rest, f32O := decodeOp s.rebias raw } := by
  rw [nextState, applyInput_of_waiting h]
  rfl

theorem nextState_of_empty {s : State} (h : s.stimulus = []) :
    nextState s = { s with f32O := decodeOp s.rebias s.rawI } := by
  rw [nextState, applyInput_of_empty h]
  rfl

theorem nextState_pushInput (raw : Byte) (s : State) :
    nextState (pushInput raw s) = { s with rawI := raw, f32O := decodeOp s.rebias raw } :=
  nextState_of_waiting rfl

/-- Over the intact ROM the output is DECODE of the byte now on the port. -/
theorem nextState_f32O_of_romIntact {s : State} (hrom : s.RomIntact) :
    (nextState s).f32O = decodeWord (nextState s).rawI := by
  rw [nextState_f32O, hrom, decodeWord]

/-- A step settles the output, whatever it was before. -/
theorem nextState_inv {s : State} (hrom : s.RomIntact) : (nextState s).Inv :=
  ⟨(nextState_rebias s).trans hrom, nextState_f32O_of_romIntact hrom⟩

theorem step_pushInput_eq_next (raw : Byte) (s : State) :
    step (pushInput raw s) = .next { s with rawI := raw, f32O := decodeOp s.rebias raw } := by
  rw [step_eq_nextState, nextState_pushInput]

/-! ## DECODE as the rule writes it, on the byte as a word of 8 bits (R74) -/

theorem isNanByte_iff_masks (raw : Byte) :
    isNanByte raw = true ↔ (raw >>> 3) &&& 0xF#8 = 0xF#8 ∧ raw &&& 0x7#8 = 0x7#8 := by
  revert raw; decide

/-- Every index the shifted and masked byte can be is in range. -/
theorem getElem?_extractExp (rom : Rom) (raw : Byte) :
    (rom[((raw >>> 3) &&& 0xF#8).toNat]?).getD 0#32 = romRead rom (extractExp raw) := by
  rw [← toNat_extractExp, getElem?_pos rom _ (extractExp raw).isLt]
  rfl

theorem placeMant_extractMant (raw : Byte) : placeMant (extractMant raw) = (raw &&& 0x7#8).setWidth 32 <<< 20 := by
  revert raw; decide

/-- The pseudocode's fields are slices and masks of the input byte. -/
theorem decodeOp_eq_pseudocode (rom : Rom) (raw : Byte) :
    decodeOp rom raw =
      if (raw >>> 3) &&& 0xF#8 = 0xF#8 ∧ raw &&& 0x7#8 = 0x7#8 then nanBits
      else ((raw.extractLsb' 7 1).setWidth 32 <<< 31) ||| (rom[((raw >>> 3) &&& 0xF#8).toNat]?).getD 0#32
        ||| ((raw &&& 0x7#8).setWidth 32 <<< 20) := by
  rw [← extractSign_eq_slice, getElem?_extractExp, ← placeMant_extractMant]
  exact if_congr (isNanByte_iff_masks raw) rfl rfl

/-- The corner cases and the example of R74. -/
theorem decodeWord_corner_cases :
    ∀ p ∈ [(0x00#8, 0x3C000000#32), (0x80#8, 0xBC000000#32), (0x7E#8, 0x43E00000#32), (0xFE#8, 0xC3E00000#32),
      (0x7F#8, nanBits), (0xFF#8, nanBits), (0x77#8, 0x43700000#32), (0x38#8, 0x3F800000#32)], decodeWord p.1 = p.2 := by
  simp only [List.forall_mem_cons]
  exact ⟨rfl, rfl, rfl, rfl, rfl, rfl, rfl, rfl, nofun⟩

/-! ## The statements -/

/-- Settles O32: the answer is `nextState`, which holds the ROM as it was and DECODE of its input. -/
theorem stepKeepsTheInvariant : Obligations.StepKeepsTheInvariant := by
  intro s t hrom hstep
  rw [step_eq_next_iff.mp hstep]
  exact nextState_inv hrom

/-- Settles O20: a waiting byte is taken and a held one stays; the output is `decodeOp`, which is the pseudocode. -/
theorem stepComputesDecode : Obligations.StepComputesDecode := by
  intro s
  refine ⟨fun raw rest hinput => ?_, fun hrom p hp => ?_⟩
  · rw [step_eq_nextState, ← decodeOp_eq_pseudocode]
    rcases hinput with hwaiting | ⟨hempty, rfl, rfl⟩
    · rw [nextState_of_waiting hwaiting]
    · rw [nextState_of_empty hempty, ← hempty]
  · refine ⟨_, step_pushInput_eq_next p.1 s, ?_⟩
    rw [hrom]
    exact decodeWord_corner_cases p hp

/-- Settles O21: the answer is `nextState`. -/
theorem stepAlwaysCompletes : Obligations.StepAlwaysCompletes := fun s =>
  ⟨nextState s, step_eq_nextState s, nextState_stimulus s,
    (nextState_rawI s).trans (applyInput_rawI s), nextState_f32O s⟩

/-- Settles O28: the output is `decodeOp` of the ROM and the byte. -/
theorem outputIgnoresEarlierInputs : Obligations.OutputIgnoresEarlierInputs := by
  intro s u raw hrom
  exact ⟨_, _, step_pushInput_eq_next raw s, step_pushInput_eq_next raw u, congrArg (decodeOp · raw) hrom⟩

/-- Settles O18: an instruction only drives the output. -/
theorem everyInstructionChangesOnlyTheOutput : Obligations.EveryInstructionChangesOnlyTheOutput := by
  intro i s
  obtain ⟨w, hw⟩ := exec_drives i s
  exact ⟨driveOutput w s, hw, driveOutput_rebias w s, driveOutput_rawI w s, driveOutput_stimulus w s⟩

/-- Settles O19: a step decodes the byte the environment has applied, waiting or held. -/
theorem stepRunsTheDecodedInstruction : Obligations.StepRunsTheDecodedInstruction := by
  intro s raw i after hdecode
  obtain rfl : decodeByte raw = i := by simpa using hdecode
  refine ⟨fun rest hwaiting => ?_, fun hempty hheld => ?_⟩
  · rw [step, applyInput_of_waiting hwaiting]
  · rw [step, applyInput_of_empty hempty, hheld]

/-- Settles O33: the two fields are evaluated. -/
theorem resetMeetsTheInvariant : Obligations.ResetMeetsTheInvariant := ⟨reset_rebias, rfl⟩

end Sys2Proof.Machine
end

