-- ==== Sys2Proof/Proofs/OutputWords.lean ====
section
/-!
PROOFS. The two kinds of output word (spec/43_compose_mux.md R72, R73). A finite word is a byte's three fields put side by
side, the exponent field 120 higher (R72); an entry of the rebias table is the finite word of its index with the other
fields zero (R62). `NAN_BITS` is a word of the NaN class (R73). The exponent fields tell the two kinds apart.
-/

namespace Sys2Proof.Machine

/-! ## The finite words (R72, R78) -/

/-- The float32 word of a finite byte with the given fields. -/
def finiteWord (sign : Sign) (exp : ExpIdx) (mant : Mant) : Word :=
  pack32 sign (exp.setWidth 8 + 120#8) (mant ++ 0#20)

theorem compose_of_romIntact {s : State} (hrom : s.RomIntact) (sign : Sign) (exp : ExpIdx) (mant : Mant) :
    compose s.rebias sign exp mant = finiteWord sign exp mant := by
  rw [hrom, compose_rebiasRom, finiteWord]

theorem romRead_eq_finiteWord {s : State} (hrom : s.RomIntact) (exp : ExpIdx) :
    romRead s.rebias exp = finiteWord 0#1 exp 0#3 := by
  rw [hrom, romRead_rebiasRom]
  rfl

theorem decodeWord_of_finite {raw : Byte} (h : FiniteByte raw) :
    decodeWord raw = finiteWord (extractSign raw) (extractExp raw) (extractMant raw) :=
  (decodeOp_of_finite h).trans (compose_rebiasRom ..)

section
variable (sign : Sign) (exp : ExpIdx) (mant : Mant)

@[simp] theorem f32Sign_finiteWord : f32Sign (finiteWord sign exp mant) = sign := f32Sign_pack32 ..

theorem f32Exp_finiteWord : f32Exp (finiteWord sign exp mant) = exp.setWidth 8 + 120#8 := f32Exp_pack32 ..

theorem f32Frac_finiteWord : f32Frac (finiteWord sign exp mant) = mant ++ 0#20 := f32Frac_pack32 ..

/-- The sum in the exponent field does not wrap. -/
@[simp] theorem toNat_f32Exp_finiteWord : (f32Exp (finiteWord sign exp mant)).toNat = exp.toNat + 120 := by
  have in_range : exp.toNat + 120 < 2 ^ 8 := by omega
  rw [f32Exp_finiteWord, BitVec.toNat_add, BitVec.toNat_setWidth_of_le (by decide)]
  exact Nat.mod_eq_of_lt in_range

@[simp] theorem toNat_f32Frac_finiteWord : (f32Frac (finiteWord sign exp mant)).toNat = mant.toNat * 2 ^ 20 := by
  rw [f32Frac_finiteWord, BitVec.toNat_append, BitVec.toNat_zero, Nat.or_zero, Nat.shiftLeft_eq]

theorem f32Exp_finiteWord_bounds :
    120 ≤ (f32Exp (finiteWord sign exp mant)).toNat ∧ (f32Exp (finiteWord sign exp mant)).toNat ≤ 135 := by
  rw [toNat_f32Exp_finiteWord]
  omega

/-- An exponent field of 120 to 135 is neither all ones nor zero. -/
theorem f32Class_finiteWord : f32Class (finiteWord sign exp mant) = .normal := by
  obtain ⟨low, high⟩ := f32Exp_finiteWord_bounds sign exp mant
  have not_ones : f32Exp (finiteWord sign exp mant) ≠ 0xFF#8 := fun h => absurd (h ▸ high) (by decide)
  have not_zero : f32Exp (finiteWord sign exp mant) ≠ 0#8 := fun h => absurd (h ▸ low) (by decide)
  rw [f32Class, if_neg not_ones, if_neg not_zero]

/-- The biases differ by 120 and the fractions by the factor `2^20`, so the word is the number its fields are. -/
theorem f32Value_finiteWord :
    f32Value (finiteWord sign exp mant)
      = (-1) ^ sign.toNat * (2 : ℚ) ^ ((exp.toNat : ℤ) - 7) * (1 + (mant.toNat : ℚ) / 8) := by
  have exponent : ((exp.toNat + 120 : ℕ) : ℤ) - 127 = (exp.toNat : ℤ) - 7 := by omega
  have fraction : ((mant.toNat * 2 ^ 20 : ℕ) : ℚ) / 2 ^ 23 = (mant.toNat : ℚ) / 8 := by push_cast; ring
  rw [f32Value, f32Sign_finiteWord, toNat_f32Exp_finiteWord, toNat_f32Frac_finiteWord, exponent, fraction]

end

/-! ## `NAN_BITS` (R73) -/

@[simp] theorem f32Exp_nanPattern (sign : BitVec 1) (k : Fin 8388607) : f32Exp (nanPattern sign k) = 0xFF#8 :=
  f32Exp_pack32 ..

/-- The fraction counts from 1 and does not wrap. -/
theorem f32Frac_nanPattern_ne_zero (sign : BitVec 1) (k : Fin 8388607) : f32Frac (nanPattern sign k) ≠ 0#23 := by
  have in_range : k.val + 1 < 2 ^ 23 := by omega
  intro h
  have zero := congrArg BitVec.toNat h
  rw [nanPattern, f32Frac_pack32, BitVec.toNat_ofNat, Nat.mod_eq_of_lt in_range] at zero
  exact absurd zero (Nat.succ_ne_zero k.val)

theorem f32Class_nanPattern (sign : BitVec 1) (k : Fin 8388607) : f32Class (nanPattern sign k) = .nan := by
  rw [f32Class, if_pos (f32Exp_nanPattern sign k), if_neg (f32Frac_nanPattern_ne_zero sign k)]

/-- A word of the NaN class is the pattern of its own sign, and of its fraction counted from 0. -/
theorem exists_eq_nanPattern {w : Word} (hexp : f32Exp w = 0xFF#8) (hfrac : f32Frac w ≠ 0#23) :
    ∃ (sign : BitVec 1) (k : Fin 8388607), w = nanPattern sign k := by
  have positive : (f32Frac w).toNat ≠ 0 := fun h => hfrac (BitVec.eq_of_toNat_eq h)
  have in_range : (f32Frac w).toNat - 1 < 8388607 := by omega
  have counted : BitVec.ofNat 23 ((f32Frac w).toNat - 1 + 1) = f32Frac w := by
    rw [Nat.sub_add_cancel (Nat.pos_of_ne_zero positive), BitVec.ofNat_toNat, BitVec.setWidth_eq]
  exact ⟨f32Sign w, ⟨_, in_range⟩, by rw [nanPattern, counted, ← hexp, pack32_fields]⟩

/-- No finite word is `NAN_BITS`: its exponent field is at most 135. -/
theorem finiteWord_ne_nanBits (sign : Sign) (exp : ExpIdx) (mant : Mant) : finiteWord sign exp mant ≠ nanBits := by
  intro h
  have high := (f32Exp_finiteWord_bounds sign exp mant).2
  rw [h, nanBits, f32Exp_nanPattern] at high
  exact absurd high (by decide)

/-! ## The NaN encodings (R43, R47) -/

theorem isNanByte_iff_fields (raw : Byte) :
    isNanByte raw = true ↔ raw.extractLsb' 3 4 = 0xF#4 ∧ raw.extractLsb' 0 3 = 0x7#3 := by
  rw [← extractExp_eq_slice, ← extractMant_eq_slice]
  exact isNan_iff ..

theorem isNanByte_iff_bytes (raw : Byte) : isNanByte raw = true ↔ raw = 0x7F#8 ∨ raw = 0xFF#8 := by
  revert raw; decide

theorem isNanByte_iff_decodeNan (raw : Byte) :
    isNanByte raw = true ↔ decodeByte raw = .decodeNan (extractSign raw) := by
  rw [← rowNan_hits_iff]
  revert raw; decide

theorem isNanByte_iff_nanBits (raw : Byte) : isNanByte raw = true ↔ decodeWord raw = nanBits := by
  refine ⟨decodeOp_of_nan, fun h => ?_⟩
  by_contra finite
  rw [decodeWord_of_finite (Bool.eq_false_iff.mpr finite)] at h
  exact finiteWord_ne_nanBits _ _ _ h

/-! ## The statements -/

/-- Settles O2: an entry is the finite word of its index with sign and mantissa zero. -/
theorem rebiasEntriesAreExponentFieldsAlone : Obligations.RebiasEntriesAreExponentFieldsAlone := by
  intro s hrom exp
  have not_negative : 0 ≤ (exp.toNat : Int) - 7 + 127 := by omega
  have value : f32Value (finiteWord 0#1 exp 0#3) = (2 : ℚ) ^ ((exp.toNat : ℤ) - 7) := by simp [f32Value_finiteWord]
  obtain ⟨low, high⟩ := f32Exp_finiteWord_bounds 0#1 exp 0#3
  rw [romRead_eq_finiteWord hrom]
  exact ⟨not_negative, toNat_f32Exp_finiteWord .., low, high, f32Sign_finiteWord .., f32Frac_finiteWord ..,
    f32Class_finiteWord .., value⟩

/-- Settles O13: each placed field is zero where another is not, field by field. -/
theorem composingIsConcatenation : Obligations.ComposingIsConcatenation := by
  intro s sign exp mant hrom
  have entry : romRead s.rebias exp = pack32 0#1 (exp.setWidth 8 + 120#8) 0#23 := by rw [hrom, romRead_rebiasRom]
  refine ⟨?_, ?_, ?_, compose_of_romIntact hrom sign exp mant⟩
  · rw [placeSign_eq, entry, pack32_and, BitVec.and_zero, BitVec.zero_and, BitVec.and_zero]; rfl
  · rw [placeSign_eq, placeMant_eq, pack32_and, BitVec.and_zero, BitVec.zero_and, BitVec.zero_and]; rfl
  · rw [entry, placeMant_eq, pack32_and, BitVec.and_zero, BitVec.and_zero, BitVec.zero_and]; rfl

/-- Settles O7: the fields, the two bytes and the row are the same test, and a finite word is never `NAN_BITS`. -/
theorem nanEncodingsAreTwoBytes : Obligations.NanEncodingsAreTwoBytes := fun raw =>
  ⟨isNanByte_iff_fields raw, isNanByte_iff_bytes raw, isNanByte_iff_decodeNan raw, isNanByte_iff_nanBits raw⟩

/-- Settles O15: the row is the NaN path, and `NAN_BITS` is a NaN pattern. -/
theorem nanRowOutputsNanBits : Obligations.NanRowOutputsNanBits :=
  ⟨fun s sign => (exec_decodeNan sign s).trans (nanPath_eq_next.mpr rfl),
    f32Exp_nanPattern .., f32Frac_nanPattern_ne_zero _ _, f32Class_nanPattern ..⟩

/-- Settles O16: a word is its fields, and the non-zero fractions are the free ones counted from 1. -/
theorem nanPatternsAreExactlyTheNans : Obligations.NanPatternsAreExactlyTheNans := by
  refine fun w => ⟨fun ⟨hexp, hfrac⟩ => exists_eq_nanPattern hexp hfrac, ?_⟩
  rintro ⟨sign, k, rfl⟩
  exact ⟨f32Exp_nanPattern sign k, f32Frac_nanPattern_ne_zero sign k⟩

end Sys2Proof.Machine
end

