-- ==== Sys2Proof/Proofs/FiniteOutputs.lean ====
section
/-!
PROOFS. The statements about the outputs of finite bytes (spec/43_compose_mux.md R76 to R80; 95_test_vectors.md section
2.3). Over the intact ROM a step on a finite byte outputs the finite word of the byte's fields, so each statement is one
about `finiteWord`: its number is the byte's, its fields give the byte back, and below the sign bit it grows with the byte.
-/

namespace Sys2Proof.Machine

theorem step_pushInput_of_romIntact {s : State} (hrom : s.RomIntact) (raw : Byte) :
    step (pushInput raw s) = .next { s with rawI := raw, f32O := decodeWord raw } := by
  rw [step_pushInput_eq_next, hrom, decodeWord]

/-! ## The number of a finite byte (R77, R78) -/

theorem f32Value_decodeWord {raw : Byte} (hfinite : FiniteByte raw) : f32Value (decodeWord raw) = e4m3Value raw := by
  rw [decodeWord_of_finite hfinite, f32Value_finiteWord, e4m3Value]

/-- The magnitude of a byte's number, in units of `2^-10`: the mantissa with its leading one, shifted by the exponent. -/
def e4m3Units (raw : Byte) : ℕ := 2 ^ (extractExp raw).toNat * (8 + (extractMant raw).toNat)

theorem abs_e4m3Value (raw : Byte) : |e4m3Value raw| = (e4m3Units raw : ℚ) / 2 ^ 10 := by
  have significand : (0 : ℚ) ≤ 1 + ((extractMant raw).toNat : ℚ) / 8 := by positivity
  rw [e4m3Value, abs_mul, abs_mul, abs_neg_one_pow, one_mul, abs_of_pos (by positivity), abs_of_nonneg significand,
    zpow_sub₀ two_ne_zero, zpow_natCast, e4m3Units]
  push_cast
  ring

/-- A finite byte with exponent field 15 has mantissa 6 at most. -/
theorem mant_le_six_of_finite {raw : Byte} (hfinite : FiniteByte raw) (hexp : (extractExp raw).toNat = 15) :
    (extractMant raw).toNat ≤ 6 := by
  revert raw; decide

/-- The largest magnitude is at exponent field 15 and mantissa 6; below that field the mantissa goes to 7. -/
theorem e4m3Units_le_of_finite {raw : Byte} (hfinite : FiniteByte raw) : e4m3Units raw ≤ 448 * 2 ^ 10 := by
  rcases Nat.lt_succ_iff_lt_or_eq.mp (extractExp raw).isLt with hexp | hexp
  · calc 2 ^ (extractExp raw).toNat * (8 + (extractMant raw).toNat)
      _ ≤ 2 ^ 14 * (8 + 7) := Nat.mul_le_mul (Nat.pow_le_pow_right two_pos (by omega)) (by omega)
      _ ≤ 448 * 2 ^ 10 := by decide
  · have hmant := mant_le_six_of_finite hfinite hexp
    calc 2 ^ (extractExp raw).toNat * (8 + (extractMant raw).toNat)
      _ ≤ 2 ^ 15 * (8 + 6) := Nat.mul_le_mul (Nat.pow_le_pow_right two_pos hexp.le) (by omega)
      _ = 448 * 2 ^ 10 := rfl

theorem le_e4m3Units (raw : Byte) : 8 ≤ e4m3Units raw :=
  calc 8 = 2 ^ 0 * (8 + 0) := rfl
    _ ≤ e4m3Units raw := Nat.mul_le_mul (Nat.pow_le_pow_right two_pos (Nat.zero_le _)) (Nat.le_add_right 8 _)

theorem abs_e4m3Value_bounds {raw : Byte} (hfinite : FiniteByte raw) :
    (2 : ℚ) ^ (-7 : ℤ) ≤ |e4m3Value raw| ∧ |e4m3Value raw| ≤ 448 := by
  rw [abs_e4m3Value, le_div_iff₀ (by positivity), div_le_iff₀ (by positivity)]
  constructor
  · calc (2 : ℚ) ^ (-7 : ℤ) * 2 ^ 10 = (8 : ℕ) := by norm_num
      _ ≤ e4m3Units raw := Nat.cast_le.mpr (le_e4m3Units raw)
  · calc (e4m3Units raw : ℚ) ≤ (448 * 2 ^ 10 : ℕ) := Nat.cast_le.mpr (e4m3Units_le_of_finite hfinite)
      _ = 448 * 2 ^ 10 := by norm_num

/-! ## The word and the byte as unsigned numbers -/

theorem toNat_append_eq_add {n m : Nat} (x : BitVec n) (y : BitVec m) : (x ++ y).toNat = x.toNat * 2 ^ m + y.toNat := by
  rw [BitVec.toNat_append, ← Nat.shiftLeft_add_eq_or_of_lt y.isLt, Nat.shiftLeft_eq]

theorem toNat_eq_fields (raw : Byte) :
    raw.toNat = (extractSign raw).toNat * 2 ^ 7 + (extractExp raw).toNat * 2 ^ 3 + (extractMant raw).toNat := by
  conv_lhs => rw [← packByte_fields raw, packByte, toNat_append_eq_add, toNat_append_eq_add]
  ring

theorem toNat_eq_f32_fields (w : Word) :
    w.toNat = (f32Sign w).toNat * 2 ^ 31 + (f32Exp w).toNat * 2 ^ 23 + (f32Frac w).toNat := by
  conv_lhs => rw [← pack32_fields w, pack32, toNat_append_eq_add, toNat_append_eq_add]
  ring

theorem finite_of_le {raw : Byte} (h : raw.toNat ≤ 0x7E) : FiniteByte raw := by
  rw [FiniteByte, Bool.eq_false_iff, ne_eq, isNanByte_iff_bytes]
  rintro (rfl | rfl) <;> exact absurd h (by decide)

/-- Below the sign bit, the output is the byte shifted into place, 120 higher in the exponent field. -/
theorem toNat_decodeWord_of_le {raw : Byte} (h : raw.toNat ≤ 0x7E) :
    (decodeWord raw).toNat = raw.toNat * 2 ^ 20 + 120 * 2 ^ 23 := by
  have byte := toNat_eq_fields raw
  have positive : (extractSign raw).toNat = 0 := by omega
  rw [decodeWord_of_finite (finite_of_le h), toNat_eq_f32_fields, f32Sign_finiteWord, toNat_f32Exp_finiteWord,
    toNat_f32Frac_finiteWord]
  omega

/-! ## The fields of the word give the byte back (R80) -/

theorem finiteWord_injective {sign sign' : Sign} {exp exp' : ExpIdx} {mant mant' : Mant}
    (h : finiteWord sign exp mant = finiteWord sign' exp' mant') : sign = sign' ∧ exp = exp' ∧ mant = mant' := by
  have hsign := congrArg f32Sign h
  have hexp := congrArg (fun w => (f32Exp w).toNat) h
  have hfrac := congrArg (fun w => (f32Frac w).toNat) h
  simp only [f32Sign_finiteWord, toNat_f32Exp_finiteWord, toNat_f32Frac_finiteWord] at hsign hexp hfrac
  exact ⟨hsign, BitVec.eq_of_toNat_eq (by omega), BitVec.eq_of_toNat_eq (by omega)⟩

theorem decodeWord_injective_of_finite {a b : Byte} (ha : FiniteByte a) (hb : FiniteByte b)
    (h : decodeWord a = decodeWord b) : a = b := by
  rw [decodeWord_of_finite ha, decodeWord_of_finite hb] at h
  obtain ⟨hsign, hexp, hmant⟩ := finiteWord_injective h
  rw [← packByte_fields a, hsign, hexp, hmant, packByte_fields]

/-! ## Setting bit 7 of the byte -/

theorem fields_setSign (raw : Byte) :
    extractSign (raw ||| 0x80#8) = 1#1 ∧ extractExp (raw ||| 0x80#8) = extractExp raw ∧
    extractMant (raw ||| 0x80#8) = extractMant raw := by
  revert raw; decide

theorem finiteWord_setSign (sign : Sign) (exp : ExpIdx) (mant : Mant) :
    finiteWord sign exp mant ||| 0x80000000#32 = finiteWord 1#1 exp mant := by
  have bit31 : 0x80000000#32 = pack32 1#1 0#8 0#23 := rfl
  have sign_or_one : sign ||| 1#1 = 1#1 := BitVec.or_allOnes
  rw [finiteWord, bit31, pack32_or, sign_or_one, BitVec.or_zero, BitVec.or_zero, finiteWord]

theorem decodeWord_setSign {raw : Byte} (hfinite : FiniteByte raw) :
    decodeWord (raw ||| 0x80#8) = decodeWord raw ||| 0x80000000#32 := by
  obtain ⟨hsign, hexp, hmant⟩ := fields_setSign raw
  have finite' : FiniteByte (raw ||| 0x80#8) := by rwa [FiniteByte, isNanByte, hexp, hmant]
  rw [decodeWord_of_finite finite', decodeWord_of_finite hfinite, hsign, hexp, hmant, finiteWord_setSign]

/-! ## The statements -/

/-- Settles O23: the output is a finite word with the byte's sign. -/
theorem finiteBytesGiveFiniteOutputs : Obligations.FiniteBytesGiveFiniteOutputs := by
  intro s hrom hfinite
  refine ⟨nextState s, step_eq_nextState s, ?_⟩
  rw [(nextState_f32O_of_romIntact hrom).trans (decodeWord_of_finite hfinite), f32Sign_finiteWord, extractSign_eq_slice]
  obtain ⟨low, high⟩ := f32Exp_finiteWord_bounds _ _ _
  exact ⟨rfl, low, high, f32Class_finiteWord ..⟩

/-- Settles O24: the finite word is the byte's number, whose magnitude is bounded in units of `2^-10`. -/
theorem finiteDecodeIsExact : Obligations.FiniteDecodeIsExact := by
  intro s hrom hfinite
  have value : f32Value (nextState s).f32O = e4m3Value (nextState s).rawI :=
    (congrArg f32Value (nextState_f32O_of_romIntact hrom)).trans (f32Value_decodeWord hfinite)
  refine ⟨nextState s, step_eq_nextState s, nextState_rawI s, value, ?_⟩
  rw [value]
  exact abs_e4m3Value_bounds hfinite

/-- Settles O25: the two outputs are finite words, which give their bytes back. -/
theorem finiteDecodeIsInjective : Obligations.FiniteDecodeIsInjective := by
  intro s u t v hs hu finite_s finite_u hstep_s hstep_u houtput
  obtain rfl := step_eq_next_iff.mp hstep_s
  obtain rfl := step_eq_next_iff.mp hstep_u
  rw [nextState_f32O_of_romIntact hs, nextState_f32O_of_romIntact hu] at houtput
  exact decodeWord_injective_of_finite finite_s finite_u houtput

/-- Settles O26: bit 7 is the sign of the byte and bit 31 that of the word, and the other fields stay. -/
theorem signBitIsCarriedOver : Obligations.SignBitIsCarriedOver := by
  intro s t raw hrom hle hstep
  have output : t.f32O = decodeWord raw := by
    rw [step_eq_next_iff.mp hstep]
    exact nextState_f32O_of_romIntact (s := pushInput raw s) hrom
  exact ⟨_, step_pushInput_of_romIntact hrom _, by rw [output, ← decodeWord_setSign (finite_of_le hle)]⟩

/-- Settles O27: below the sign bit the output is an increasing linear function of the byte. -/
theorem decodeIsStrictlyIncreasing : Obligations.DecodeIsStrictlyIncreasing := by
  intro s u a b hs hu hlt hle
  refine ⟨_, _, step_pushInput_of_romIntact hs a, step_pushInput_of_romIntact hu b, ?_⟩
  rw [toNat_decodeWord_of_le hle, toNat_decodeWord_of_le (hlt.le.trans hle)]
  omega

end Sys2Proof.Machine
end

