-- ==== Sys2Proof/Proofs/Runs.lean ====
section
/-!
PROOFS. The statements about any number of steps (spec/70_reset_and_hazards.md R98, R101; 10_state.md R25). A step always
answers `nextState`, so `k` steps answer its `k`-th iterate, and each statement is one about iterating `nextState`.
-/

namespace Sys2Proof.Machine

/-! ## A run iterates `nextState` -/

theorem stepN_succ (k : Nat) (s : State) : stepN (k + 1) s = stepN k (nextState s) := by
  rw [stepN, step_eq_nextState]

theorem stepN_eq_iterate (k : Nat) (s : State) : stepN k s = .next (nextState^[k] s) := by
  induction k generalizing s with
  | zero => rfl
  | succ k ih => rw [stepN_succ, ih, Function.iterate_succ_apply]

/-- What every step keeps, a run keeps. -/
theorem iterate_nextState_keeps {P : State → Prop} (hstep : ∀ s, P s → P (nextState s)) (k : Nat) {s : State} (hs : P s) :
    P (nextState^[k] s) := by
  induction k with
  | zero => exact hs
  | succ k ih => rw [Function.iterate_succ_apply']; exact hstep _ ih

theorem iterate_nextState_rebias (k : Nat) (s : State) : (nextState^[k] s).rebias = s.rebias :=
  iterate_nextState_keeps (P := fun t => t.rebias = s.rebias) (fun t ht => (nextState_rebias t).trans ht) k rfl

theorem iterate_nextState_inv (k : Nat) {s : State} (hinv : s.Inv) : (nextState^[k] s).Inv :=
  iterate_nextState_keeps (fun _ ht => nextState_inv ht.1) k hinv

/-- Each step takes one waiting byte. -/
theorem iterate_nextState_stimulus (k : Nat) (s : State) : (nextState^[k] s).stimulus = s.stimulus.drop k := by
  induction k with
  | zero => rfl
  | succ k ih => rw [Function.iterate_succ_apply', nextState_stimulus, ih, List.tail_drop]

/-! ## The two phases of a stimulus: bytes are applied, then the last one is held -/

/-- The step that applies a byte sets the input and the output anew, so nothing is left of the bytes before it. -/
theorem iterate_nextState_of_waiting {before : List Byte} {raw : Byte} {rest : List Byte} {s : State}
    (h : s.stimulus = before ++ raw :: rest) :
    nextState^[before.length + 1] s = { s with rawI := raw, stimulus := rest, f32O := decodeOp s.rebias raw } := by
  induction before generalizing s with
  | nil => exact nextState_of_waiting h
  | cons first before ih =>
    have waiting : (nextState s).stimulus = before ++ raw :: rest := by rw [nextState_stimulus, h]; rfl
    rw [List.length_cons, Function.iterate_succ_apply, ih waiting, nextState_of_waiting h]

/-- A settled output is DECODE of the held input already. -/
theorem nextState_of_held {s : State} (hinv : s.Inv) (hempty : s.stimulus = []) : nextState s = s := by
  obtain ⟨hrom, hsettled⟩ := hinv
  have output : decodeOp s.rebias s.rawI = s.f32O := by rw [hsettled, hrom, decodeWord]
  rw [nextState_of_empty hempty, output]

theorem iterate_nextState_of_held {s : State} (hinv : s.Inv) (hempty : s.stimulus = []) (k : Nat) :
    nextState^[k] s = s :=
  Function.iterate_fixed (nextState_of_held hinv hempty) k

/-- The readings of a state's output, settled or not yet (R98). -/
theorem sample_eq (s : State) (time : Nat) : s.sample time = if time < Config.tPd then none else some s.f32O := by
  split_ifs with h
  · exact sample_of_settling h
  · exact sample_of_settled (Nat.not_lt.mp h)

/-! ## The statements -/

/-- Settles O22: `k` steps answer the `k`-th iterate. -/
theorem everyRunCompletes : Obligations.EveryRunCompletes := fun k s =>
  ⟨nextState^[k] s, stepN_eq_iterate k s, iterate_nextState_stimulus k s⟩

/-- Settles O34: every step settles the output and leaves the ROM. -/
theorem invariantHoldsAlongEveryRun : Obligations.InvariantHoldsAlongEveryRun := fun k s hinv =>
  ⟨nextState^[k] s, stepN_eq_iterate k s, iterate_nextState_inv k hinv⟩

/-- Settles O4: an instruction only drives the output, a run keeps what every step keeps, and loading a byte only puts it
on the list. -/
theorem romIsNeverWritten : Obligations.RomIsNeverWritten := by
  refine ⟨fun i s t hexec => ?_, fun k s t hrun => ?_, fun s _ _ => pushInput_rebias _ s, reset_rebias⟩
  · obtain ⟨w, hw⟩ := exec_drives i s
    obtain rfl : driveOutput w s = t := by simpa [hw] using hexec
    exact driveOutput_rebias w s
  · obtain rfl : nextState^[k] s = t := by simpa [stepN_eq_iterate] using hrun
    exact iterate_nextState_rebias k s

/-- Settles O29: the byte's own step sets the input and the output. -/
theorem eachByteOfAStimulusIsDecoded : Obligations.EachByteOfAStimulusIsDecoded := by
  intro s before raw rest hrom hstimulus
  rw [stepN_eq_iterate, iterate_nextState_of_waiting hstimulus, hrom, decodeWord]

/-- Settles O30: a settled state with no byte waiting is a fixed point of `nextState`. -/
theorem heldInputKeepsTheOutput : Obligations.HeldInputKeepsTheOutput := by
  intro s k hinv hempty
  rw [stepN_eq_iterate, iterate_nextState_of_held hinv hempty]

/-- Settles O31: the first step applies the byte and settles its output, and the steps after it hold both. -/
theorem onlySettledOutputsAreRead : Obligations.OnlySettledOutputsAreRead := by
  intro s raw k hrom hstimulus
  have none_waits : (nextState s).stimulus = [] := by rw [nextState_stimulus, hstimulus]; rfl
  have output : (nextState s).f32O = decodeWord raw := by rw [nextState_of_waiting hstimulus, hrom, decodeWord]
  refine ⟨nextState s, ?_, fun time => ?_⟩
  · rw [stepN_succ, stepN_eq_iterate, iterate_nextState_of_held (nextState_inv hrom) none_waits]
  · rw [sample_eq, output]

end Sys2Proof.Machine
end
